-- ==== Sys2Proof/Word.lean ====
section
/-! DEFINITION. The quantities of the block: bytes, byte sequences and the 16-bit header word
(00_scope.md R9, R11, R12; 30_encoding.md R105). -/

namespace Sys2Proof

/-- A byte is 8 bits; bit 7 is its most significant bit (R9, R11). -/
abbrev Byte := BitVec 8

/-- A byte sequence; the head is the first byte on the wire (R12). -/
abbrev Bytes := List Byte

/-- The header word `H = first_byte * 256 + second_byte` of opcode_table.json (R105). -/
abbrev HeaderWord := BitVec 16

end Sys2Proof
end

