-- ==== Sys2Proof/Syntax.lean ====
section
/-! DEFINITION. The frames and the host operations as syntax: one constructor of `Instr` per row of
opcode_table.json (30_encoding.md R98, R105), one constructor of `HostOp` per host operation (R106). -/

namespace Sys2Proof

/-- A mask key: four bytes, `b0` the first on the wire (20_memory.md R61). -/
structure Key where
  b0 : Byte
  b1 : Byte
  b2 : Byte
  b3 : Byte
deriving DecidableEq, Repr

/-- The fields of a frame as DEC sees it (R43, R91): `key` is present iff the mask bit is set, and `payload`
is the application payload, after unmasking (R96). The length class is no field: a frame's is the
minimal one of its payload (41_length_codec.md R147). -/
structure Frame where
  fin : Bool
  rsv : BitVec 3
  key : Option Key
  payload : Bytes
deriving DecidableEq, Repr

/-- The six known opcodes (10_state.md R41), also the types of `enc.m_type` (R38). -/
inductive FrameType where
  | continuation
  | text
  | binary
  | close
  | ping
  | pong
deriving DecidableEq, Repr

/-- The symbols of the close-status table (10_state.md R42); `noStatus` is "no symbolic status". -/
inductive CloseSym where
  | noStatus
  | normalClosure
  | peerGoingAway
  | protocolError
  | dataError
  | dataNotConsistent
  | policyViolation
  | messageTooBig
  | extensionRequired
  | unexpectedCondition
deriving DecidableEq, Repr

/-- One constructor per row of opcode_table.json: the ten DEC rows, a frame as the decoder sees it, then the six
ENC rows, a frame as the encoder emits it. `rsvd4to7` and `rsvd12to15` stand for four opcodes each and carry the
two low opcode bits. The operands of an ENC row are those of its `ENC.BUILD` operation and the key of the
`ENC.MASK` between build and emit, if any (notes/assumptions/5.md). -/
inductive Instr where
  /-- row CONT (44_frame_completion.md R212) -/
  | cont (f : Frame)
  /-- row TEXT (R213) -/
  | text (f : Frame)
  /-- row BINARY (R214) -/
  | binary (f : Frame)
  /-- row RSVD_3 (R211) -/
  | rsvd3 (f : Frame)
  /-- row RSVD_4_7 (R211) -/
  | rsvd4to7 (lo : BitVec 2) (f : Frame)
  /-- row CLOSE (R217) -/
  | close (f : Frame)
  /-- row PING (R218) -/
  | ping (f : Frame)
  /-- row PONG (R219) -/
  | pong (f : Frame)
  /-- row RSVD_11 (R211) -/
  | rsvd11 (f : Frame)
  /-- row RSVD_12_15 (R211) -/
  | rsvd12to15 (lo : BitVec 2) (f : Frame)
  /-- row ENC.CONT (42_encoder.md R153, R160) -/
  | encCont (key : Option Key) (payload : Bytes)
  /-- row ENC.TEXT (R151, R160) -/
  | encText (key : Option Key) (payload : Bytes)
  /-- row ENC.BINARY (R152, R160) -/
  | encBinary (key : Option Key) (payload : Bytes)
  /-- row ENC.CLOSE (R156, R160) -/
  | encClose (key : Option Key) (payload : Bytes) (status : Option (BitVec 16)) (reason : Option Bytes)
  /-- row ENC.PING (R154, R160) -/
  | encPing (key : Option Key) (payload : Bytes)
  /-- row ENC.PONG (R155, R160) -/
  | encPong (key : Option Key) (payload : Bytes)
deriving DecidableEq, Repr

/-- The host operations, typed transactions with no bit encoding (30_encoding.md R106). -/
inductive HostOp where
  /-- `DEC.RESET` (70_reset_and_hazards.md R290) -/
  | decReset
  /-- `DEC.FEED(chunk)` (43_decoder_phases.md R187) -/
  | decFeed (chunk : Bytes)
  /-- `DEC.STATUS` (R191) -/
  | decStatus
  /-- `ENC.BUILD.TEXT(payload)` (42_encoder.md R151) -/
  | encBuildText (payload : Bytes)
  /-- `ENC.BUILD.BINARY(payload)` (R152) -/
  | encBuildBinary (payload : Bytes)
  /-- `ENC.BUILD.CONT(payload)` (R153) -/
  | encBuildCont (payload : Bytes)
  /-- `ENC.BUILD.PING(payload)` (R154) -/
  | encBuildPing (payload : Bytes)
  /-- `ENC.BUILD.PONG(payload)` (R155) -/
  | encBuildPong (payload : Bytes)
  /-- `ENC.BUILD.CLOSE(payload, status, reason)` (R156) -/
  | encBuildClose (payload : Bytes) (status : Option (BitVec 16)) (reason : Option Bytes)
  /-- `ENC.MASK(key)` (R157) -/
  | encMask (key : Key)
  /-- `ENC.EMIT` (R160) -/
  | encEmit
  /-- `XM.LOADKEY(key)` (40_masking.md R133) -/
  | xmLoadKey (key : Key)
  /-- `XM.XORBYTE(b)` (R134) -/
  | xmXorByte (b : Byte)
  /-- One ENC row as a whole, the model's own transaction: build, mask if a key is given, emit
  (R150; notes/assumptions/5.md). -/
  | encFrame (i : Instr)
deriving DecidableEq, Repr

end Sys2Proof
end

