-- ==== Sys2Proof/Machine/Flags.lean ====
section
/-! DEFINITION. The fields read out of the two header bytes (10_state.md R32), the header bytes written from them
(30_encoding.md R91), and the opcode classes (R33, R41, R98). The block has no arithmetic flags (R34). -/

namespace Sys2Proof.Machine

/-- `fin = first_byte[7]` (R32, R91; notes/assumptions/10.md). -/
def finOf (first : Byte) : Bool := first.getLsbD 7

/-- `rsv = first_byte[6:4]`, read and never acted on (R32, R99). -/
def rsvOf (first : Byte) : BitVec 3 := first.extractLsb' 4 3

/-- `opcode = first_byte[3:0]` (R32). -/
def opcodeOf (first : Byte) : BitVec 4 := first.extractLsb' 0 4

/-- `masked = second_byte[7]` (R32). -/
def maskedOf (second : Byte) : Bool := second.getLsbD 7

/-- `len7 = second_byte[6:0]` (R32). -/
def len7Of (second : Byte) : BitVec 7 := second.extractLsb' 0 7

/-- The first header byte of the layout of R91. -/
def firstByteOf (fin : Bool) (rsv : BitVec 3) (opcode : BitVec 4) : Byte := BitVec.ofBool fin ++ rsv ++ opcode

/-- The second header byte of the layout of R91. -/
def secondByteOf (masked : Bool) (len7 : BitVec 7) : Byte := BitVec.ofBool masked ++ len7

/-- The header word of opcode_table.json (R105). -/
def headerWord (first second : Byte) : HeaderWord := first ++ second

/-- The opcode table: "`continuation`=0, `text`=1, `binary`=2, `close`=8, `ping`=9, `pong`=10" (R41). -/
def opcodeCode : FrameType → BitVec 4
  | .continuation => 0
  | .text => 1
  | .binary => 2
  | .close => 8
  | .ping => 9
  | .pong => 10

/-- `is_data(o)` (R33). -/
def isData (o : BitVec 4) : Bool := o == 1 || o == 2

/-- `is_cont(o)` (R33). -/
def isCont (o : BitVec 4) : Bool := o == 0

/-- `is_control(o)` (R33). -/
def isControl (o : BitVec 4) : Bool := o == 8 || o == 9 || o == 10

/-- `is_known(o)` (R33). -/
def isKnown (o : BitVec 4) : Bool := isData o || isCont o || isControl o

/-- FIN as the encoder sets it: "always set except when type is `continuation`" (42_encoder.md R160). -/
def encFin : FrameType → Bool
  | .continuation => false
  | .text => true
  | .binary => true
  | .close => true
  | .ping => true
  | .pong => true

/-- The first byte ENC emits, a function of the type alone, `rsv` 0 (R160, R161). -/
def encFirstByte (t : FrameType) : Byte := firstByteOf (encFin t) 0 (opcodeCode t)

end Sys2Proof.Machine
end

