-- ==== Sys2Proof/Machine/Operands.lean ====
section
/-! DEFINITION. The pure functions on operands: byte order (20_memory.md R60, 00_scope.md R12), the masking transform XM
(40_masking.md R130), the length codec LC (41_length_codec.md R140 to R144), the close payload (30_encoding.md R97,
42_encoder.md R156), the close-status table (10_state.md R42) and well-formed UTF-8 (44_frame_completion.md R220). -/

namespace Sys2Proof.Machine

/-- `from_be(s)`: the unsigned number whose big-endian bytes are `s` (R12). -/
def fromBe (s : Bytes) : Nat := s.foldl (fun a b => a * 256 + b.toNat) 0

/-- `be16(v) = [v[15:8], v[7:0]]` (R12). -/
def be16 (v : BitVec 16) : Bytes := [v.extractLsb' 8 8, v.extractLsb' 0 8]

/-- `be64(v)`, `v[63:56]` first (R12). -/
def be64 (v : BitVec 64) : Bytes :=
  [v.extractLsb' 56 8, v.extractLsb' 48 8, v.extractLsb' 40 8, v.extractLsb' 32 8,
   v.extractLsb' 24 8, v.extractLsb' 16 8, v.extractLsb' 8 8, v.extractLsb' 0 8]

/-! ### XM, the masking transform -/

/-- `key[i mod 4]` (R130). -/
def keyByte (k : Key) (i : Nat) : Byte :=
  match i % 4 with
  | 0 => k.b0
  | 1 => k.b1
  | 2 => k.b2
  | _ => k.b3

/-- The bytes of a key in wire order (R61). -/
def keyBytes (k : Key) : Bytes := [k.b0, k.b1, k.b2, k.b3]

/-- The key whose wire bytes are the four given (R61). -/
def keyOfBytes : Bytes → Option Key
  | [a, b, c, d] => some ⟨a, b, c, d⟩
  | _ => none

/-- `rot(key, r)[j] = key[(j + r) mod 4]` (R132). -/
def rotKey (k : Key) (r : Nat) : Key := ⟨keyByte k r, keyByte k (1 + r), keyByte k (2 + r), keyByte k (3 + r)⟩

/-- Masking with the key index starting at `i`. -/
def maskFrom (k : Key) : Nat → Bytes → Bytes
  | _, [] => []
  | i, b :: s => (b ^^^ keyByte k i) :: maskFrom k (i + 1) s

/-- `mask(data, key)`: `out[i] = data[i] XOR key[i mod 4]`, `i` counted from 0 (R130). -/
def mask (data : Bytes) (k : Key) : Bytes := maskFrom k 0 data

/-- `unmask` is the same function (R131). -/
def unmask (data : Bytes) (k : Key) : Bytes := mask data k

/-- The payload under an optional key: masked iff a key is present (R96). -/
def maskOpt (data : Bytes) : Option Key → Bytes
  | none => data
  | some k => mask data k

/-! ### LC, the length codec -/

/-- A length as the header carries it: the 7-bit code and the extended field of 0, 2 or 8 bytes (R141). -/
structure LenCode where
  len7 : BitVec 7
  ext : Bytes
deriving DecidableEq, Repr

/-- `len_encode(L)` (R141). -/
def lenEncode (len : BitVec 64) : LenCode :=
  if len.toNat < 126 then ⟨len.setWidth 7, []⟩
  else if len.toNat ≤ 65535 then ⟨126, be16 (len.setWidth 16)⟩
  else ⟨127, be64 len⟩

/-- `ext_size(len7)` (R142). -/
def extSize (len7 : BitVec 7) : Nat := if len7.toNat ≤ 125 then 0 else if len7.toNat = 126 then 2 else 8

/-- What `len_decode` answers (R143). -/
inductive LenResult where
  | ok (len : BitVec 64)
  | nonMinimal
deriving DecidableEq, Repr

/-- `len_decode(len7, ext)` with the minimal-encoding check (R143, R144). -/
def lenDecode (len7 : BitVec 7) (ext : Bytes) : LenResult :=
  if len7.toNat ≤ 125 then .ok (len7.setWidth 64)
  else if len7.toNat = 126 then
    if fromBe ext ≤ 125 then .nonMinimal else .ok (BitVec.ofNat 64 (fromBe ext))
  else
    if fromBe ext ≤ 65535 then .nonMinimal else .ok (BitVec.ofNat 64 (fromBe ext))

/-- The operand type of a build: a byte sequence of length below 2^64 (R39, R151; U17). -/
def payloadFits (p : Bytes) : Bool := decide (p.length < 2 ^ 64)

/-- The length of a payload as the 64-bit operand of `len_encode` (R160). -/
def payloadLen (p : Bytes) : BitVec 64 := BitVec.ofNat 64 p.length

/-! ### The close payload -/

/-- A reason without a status is the contract violation (R156). -/
def closeViolates (status : Option (BitVec 16)) (reason : Option Bytes) : Bool := reason.isSome && status.isNone

/-- The payload of a close message: with a status `be16(status) ++ reason`, the payload operand unused; else the
payload operand (R156). -/
def closePayload (payload : Bytes) (status : Option (BitVec 16)) (reason : Option Bytes) : Bytes :=
  match status with
  | some c => be16 c ++ reason.getD []
  | none => payload

/-- The status-code table (R42; notes/assumptions/11.md). -/
def statusTable : List (Nat × CloseSym) :=
  [(1000, .normalClosure), (1001, .peerGoingAway), (1002, .protocolError), (1003, .dataError),
   (1007, .dataNotConsistent), (1008, .policyViolation), (1009, .messageTooBig), (1010, .extensionRequired),
   (1011, .unexpectedCondition)]

/-- `status_sym(c)`: the symbol of the row whose code is `c`, none for every other code (R42). -/
def statusSym (c : Nat) : CloseSym := (statusTable.lookup c).getD .noStatus

/-- The number of a symbol in `EV_CLOSE` (R42). -/
def symCode : CloseSym → Nat
  | .noStatus => 0
  | .normalClosure => 1
  | .peerGoingAway => 2
  | .protocolError => 3
  | .dataError => 4
  | .dataNotConsistent => 5
  | .policyViolation => 6
  | .messageTooBig => 7
  | .extensionRequired => 8
  | .unexpectedCondition => 9

/-- What a CLOSE frame's payload says: symbol and reason; fewer than two bytes say neither (R217). -/
def closeMeaning : Bytes → CloseSym × Bytes
  | a :: b :: reason => (statusSym (fromBe [a, b]), reason)
  | [_] => (.noStatus, [])
  | [] => (.noStatus, [])

/-! ### UTF-8 -/

/-- A row of the table of R220: the range of each byte of a group. -/
abbrev Utf8Row := List (Byte × Byte)

/-- The nine rows of R220, in its order (notes/assumptions/11.md). -/
def utf8Rows : List Utf8Row :=
  [[(0x00, 0x7f)],
   [(0xc2, 0xdf), (0x80, 0xbf)],
   [(0xe0, 0xe0), (0xa0, 0xbf), (0x80, 0xbf)],
   [(0xe1, 0xec), (0x80, 0xbf), (0x80, 0xbf)],
   [(0xed, 0xed), (0x80, 0x9f), (0x80, 0xbf)],
   [(0xee, 0xef), (0x80, 0xbf), (0x80, 0xbf)],
   [(0xf0, 0xf0), (0x90, 0xbf), (0x80, 0xbf), (0x80, 0xbf)],
   [(0xf1, 0xf3), (0x80, 0xbf), (0x80, 0xbf), (0x80, 0xbf)],
   [(0xf4, 0xf4), (0x80, 0x8f), (0x80, 0xbf), (0x80, 0xbf)]]

/-- Some prefix of the bytes matches the row, byte for byte. -/
def rowMatches : Utf8Row → Bytes → Bool
  | [], _ => true
  | _ :: _, [] => false
  | (lo, hi) :: row, b :: s => decide (lo ≤ b) && decide (b ≤ hi) && rowMatches row s

/-- Strips groups from the front, at most `fuel` of them. -/
def utf8Strip : Nat → Bytes → Bool
  | _, [] => true
  | 0, _ :: _ => false
  | fuel + 1, b :: s =>
    match utf8Rows.find? (fun row => rowMatches row (b :: s)) with
    | none => false
    | some row => utf8Strip fuel ((b :: s).drop row.length)

/-- `utf8_wf(s)`: `s` is a concatenation of groups, each matching one row (R220). Every group has a byte, so the
length of `s` is fuel enough. -/
def utf8Wf (s : Bytes) : Bool := utf8Strip s.length s

end Sys2Proof.Machine
end

