-- ==== Sys2Proof/WellFormed.lean ====
section
/-! DEFINITION. Which instructions are well formed: the payload is in the operand type (42_encoder.md R151, U17;
10_state.md R39) and a close reason comes with a status (R156). -/

namespace Sys2Proof

/-- Every frame's payload, and every ENC row's payload as it will be emitted, is shorter than 2^64 bytes, and an
ENC.CLOSE does not give a reason without a status. -/
def Instr.wellFormed : Instr → Bool
  | .cont f => Machine.payloadFits f.payload
  | .text f => Machine.payloadFits f.payload
  | .binary f => Machine.payloadFits f.payload
  | .rsvd3 f => Machine.payloadFits f.payload
  | .rsvd4to7 _ f => Machine.payloadFits f.payload
  | .close f => Machine.payloadFits f.payload
  | .ping f => Machine.payloadFits f.payload
  | .pong f => Machine.payloadFits f.payload
  | .rsvd11 f => Machine.payloadFits f.payload
  | .rsvd12to15 _ f => Machine.payloadFits f.payload
  | .encCont _ p => Machine.payloadFits p
  | .encText _ p => Machine.payloadFits p
  | .encBinary _ p => Machine.payloadFits p
  | .encClose _ p st r => !Machine.closeViolates st r && Machine.payloadFits (Machine.closePayload p st r)
  | .encPing _ p => Machine.payloadFits p
  | .encPong _ p => Machine.payloadFits p

end Sys2Proof
end

