-- ==== Sys2Proof/Decode.lean ====
section
/-! DEFINITION. Decoding bytes to the frame they spell and encoding a frame to its bytes (30_encoding.md R90 to R105). The
decoder here reads a whole frame at once; the machine's incremental decoder is Machine/Feed.lean. -/

namespace Sys2Proof

open Machine

/-- The rows of opcode_table.json by opcode: every one of the sixteen values is classified (R98). -/
def decodeOpcode (op : BitVec 4) (f : Frame) : Instr :=
  match op.toNat with
  | 0 => .cont f
  | 1 => .text f
  | 2 => .binary f
  | 3 => .rsvd3 f
  | 4 => .rsvd4to7 0 f
  | 5 => .rsvd4to7 1 f
  | 6 => .rsvd4to7 2 f
  | 7 => .rsvd4to7 3 f
  | 8 => .close f
  | 9 => .ping f
  | 10 => .pong f
  | 11 => .rsvd11 f
  | 12 => .rsvd12to15 0 f
  | 13 => .rsvd12to15 1 f
  | 14 => .rsvd12to15 2 f
  | _ => .rsvd12to15 3 f

/-- What a decoder answers on any bytes; every rejection has a name. -/
inductive Decoded where
  /-- the instruction and the bytes after it -/
  | ok (i : Instr) (rest : Bytes)
  /-- the bytes end before the frame does (43_decoder_phases.md R180: the decoder would suspend) -/
  | short
  /-- `NonMinimalLengthEncoding` (R101) -/
  | nonMinimalLength
  /-- a frame that no ENC row's pattern matches (R104, R105) -/
  | noEncoderRow
deriving DecidableEq, Repr

/-- A frame cut out of the stream: first byte, key if masked, application payload. -/
inductive Parsed where
  | ok (first : Byte) (key : Option Key) (payload rest : Bytes)
  | short
  | nonMinimalLength
deriving DecidableEq, Repr

/-- The payload segment, unmasked if there is a key (R96). -/
def parsePayload (first : Byte) (key : Option Key) (len : Nat) (s : Bytes) : Parsed :=
  if s.length < len then .short else .ok first key (maskOpt (s.take len) key) (s.drop len)

/-- The key segment, present iff the mask bit is set (R95), then the payload. -/
def parseKey (first : Byte) (masked : Bool) (len : Nat) (s : Bytes) : Parsed :=
  match masked with
  | false => parsePayload first none len s
  | true =>
    match s with
    | a :: b :: c :: d :: s => parsePayload first (some ⟨a, b, c, d⟩) len s
    | _ => .short

/-- The layout of R90: header, extended length, key, payload. -/
def parseFrame : Bytes → Parsed
  | first :: second :: s =>
    if s.length < extSize (len7Of second) then .short
    else
      match lenDecode (len7Of second) (s.take (extSize (len7Of second))) with
      | .nonMinimal => .nonMinimalLength
      | .ok len => parseKey first (maskedOf second) len.toNat (s.drop (extSize (len7Of second)))
  | _ => .short

/-- DEC's reading of the bytes: one of the ten DEC rows (R98). -/
def decodeFrame (s : Bytes) : Decoded :=
  match parseFrame s with
  | .ok first key payload rest => .ok (decodeOpcode (opcodeOf first) ⟨finOf first, rsvOf first, key, payload⟩) rest
  | .short => .short
  | .nonMinimalLength => .nonMinimalLength

/-- The ENC row with the first byte given, if any (R104). A CLOSE row's payload is read back as the payload operand. -/
def encoderRow (first : Byte) (key : Option Key) (payload : Bytes) : Option Instr :=
  match first.toNat with
  | 0x00 => some (.encCont key payload)
  | 0x81 => some (.encText key payload)
  | 0x82 => some (.encBinary key payload)
  | 0x88 => some (.encClose key payload none none)
  | 0x89 => some (.encPing key payload)
  | 0x8a => some (.encPong key payload)
  | _ => none

/-- The bytes as a frame ENC emits: one of the six ENC rows (R104, R105). -/
def decodeEncoderFrame (s : Bytes) : Decoded :=
  match parseFrame s with
  | .ok first key payload rest =>
    match encoderRow first key payload with
    | some i => .ok i rest
    | none => .noEncoderRow
  | .short => .short
  | .nonMinimalLength => .nonMinimalLength

/-- Is the instruction one of the six ENC rows? -/
def Instr.isEncoder : Instr → Bool
  | .cont _ => false
  | .text _ => false
  | .binary _ => false
  | .rsvd3 _ => false
  | .rsvd4to7 _ _ => false
  | .close _ => false
  | .ping _ => false
  | .pong _ => false
  | .rsvd11 _ => false
  | .rsvd12to15 _ _ => false
  | .encCont _ _ => true
  | .encText _ _ => true
  | .encBinary _ _ => true
  | .encClose _ _ _ _ => true
  | .encPing _ _ => true
  | .encPong _ _ => true

/-! ### Encoding -/

/-- A frame's bytes from its first byte, key and application payload, in the layout of R90 with the minimal length
class (R141, R160). -/
def frameBytes (first : Byte) (key : Option Key) (payload : Bytes) : Bytes :=
  [first, secondByteOf key.isSome (lenEncode (payloadLen payload)).len7] ++ (lenEncode (payloadLen payload)).ext
    ++ (key.elim [] keyBytes) ++ maskOpt payload key

/-- The bytes of a frame with opcode `op` and the fields of `f`. -/
def encodeWith (op : BitVec 4) (f : Frame) : Bytes := frameBytes (firstByteOf f.fin f.rsv op) f.key f.payload

/-- The bytes of an instruction on the wire (R90, R98, R104). -/
def encode : Instr → Bytes
  | .cont f => encodeWith 0 f
  | .text f => encodeWith 1 f
  | .binary f => encodeWith 2 f
  | .rsvd3 f => encodeWith 3 f
  | .rsvd4to7 lo f => encodeWith (1#2 ++ lo) f
  | .close f => encodeWith 8 f
  | .ping f => encodeWith 9 f
  | .pong f => encodeWith 10 f
  | .rsvd11 f => encodeWith 11 f
  | .rsvd12to15 lo f => encodeWith (3#2 ++ lo) f
  | .encCont k p => frameBytes (encFirstByte .continuation) k p
  | .encText k p => frameBytes (encFirstByte .text) k p
  | .encBinary k p => frameBytes (encFirstByte .binary) k p
  | .encClose k p st r => frameBytes (encFirstByte .close) k (closePayload p st r)
  | .encPing k p => frameBytes (encFirstByte .ping) k p
  | .encPong k p => frameBytes (encFirstByte .pong) k p

/-- The instruction a frame's bytes are read back as: a close built from status and reason has the same bytes as one
built from the payload they pack to (R156); every other instruction is read back as itself. -/
def Instr.onWire : Instr → Instr
  | .cont f => .cont f
  | .text f => .text f
  | .binary f => .binary f
  | .rsvd3 f => .rsvd3 f
  | .rsvd4to7 lo f => .rsvd4to7 lo f
  | .close f => .close f
  | .ping f => .ping f
  | .pong f => .pong f
  | .rsvd11 f => .rsvd11 f
  | .rsvd12to15 lo f => .rsvd12to15 lo f
  | .encCont k p => .encCont k p
  | .encText k p => .encText k p
  | .encBinary k p => .encBinary k p
  | .encClose k p st r => .encClose k (closePayload p st r) none none
  | .encPing k p => .encPing k p
  | .encPong k p => .encPong k p

/-! ### The opcode table's rows and numbering -/

/-- A row of opcode_table.json: a header word `H` belongs to it iff `H and mask = match` (R105). -/
structure HeaderRow where
  mask : HeaderWord
  pattern : HeaderWord
deriving DecidableEq, Repr

/-- The row of an instruction: `match` and `mask` of a DEC row, the fixed bits of an ENC row's `encoding`. -/
def headerRow : Instr → HeaderRow
  | .cont _ => ⟨0x0f00, 0x0000⟩
  | .text _ => ⟨0x0f00, 0x0100⟩
  | .binary _ => ⟨0x0f00, 0x0200⟩
  | .rsvd3 _ => ⟨0x0f00, 0x0300⟩
  | .rsvd4to7 _ _ => ⟨0x0c00, 0x0400⟩
  | .close _ => ⟨0x0f00, 0x0800⟩
  | .ping _ => ⟨0x0f00, 0x0900⟩
  | .pong _ => ⟨0x0f00, 0x0a00⟩
  | .rsvd11 _ => ⟨0x0f00, 0x0b00⟩
  | .rsvd12to15 _ _ => ⟨0x0c00, 0x0c00⟩
  | .encCont _ _ => ⟨0xff00, 0x0000⟩
  | .encText _ _ => ⟨0xff00, 0x8100⟩
  | .encBinary _ _ => ⟨0xff00, 0x8200⟩
  | .encClose _ _ _ _ => ⟨0xff00, 0x8800⟩
  | .encPing _ _ => ⟨0xff00, 0x8900⟩
  | .encPong _ _ => ⟨0xff00, 0x8a00⟩

/-- The ten DEC rows, in the table's order. -/
def decRows : List HeaderRow :=
  [⟨0x0f00, 0x0000⟩, ⟨0x0f00, 0x0100⟩, ⟨0x0f00, 0x0200⟩, ⟨0x0f00, 0x0300⟩, ⟨0x0c00, 0x0400⟩, ⟨0x0f00, 0x0800⟩,
   ⟨0x0f00, 0x0900⟩, ⟨0x0f00, 0x0a00⟩, ⟨0x0f00, 0x0b00⟩, ⟨0x0c00, 0x0c00⟩]

/-- The bytes of the table's words: 16-bit words, the first in bits 15..0, each laid out first byte first (R105). -/
def tableBytes : Nat → Nat → Bytes
  | 0, _ => []
  | n + 1, w => BitVec.ofNat 8 (w / 256) :: BitVec.ofNat 8 w :: tableBytes n (w / 65536)

/-- Zero bytes enough for the rest of a frame with the given second byte: a key and a small payload, or an extended length
(which, all zeros, is not minimal: R101). -/
def zeroTail (second : Byte) : Nat := if (len7Of second).toNat ≤ 125 then 4 + (len7Of second).toNat else 8

/-- The words of a table row as the bytes of a stream, zeros after them. -/
def tableStream (nbits w : Nat) : Bytes :=
  match tableBytes ((nbits + 15) / 16) w with
  | first :: second :: more => first :: second :: (more ++ List.replicate (zeroTail second) 0)
  | other => other

/-- The instruction of the table's row for a word. Some words belong to two rows, since the table lists a frame once
as DEC sees it and once as ENC emits it (R105): the row with more fixed bits, the ENC row, is answered
(notes/assumptions/6.md). DEC itself never reads a stream this way: it uses the DEC rows alone. -/
def decodeTableWord (nbits w : Nat) : Option Instr :=
  match decodeEncoderFrame (tableStream nbits w) with
  | .ok i _ => some i
  | _ =>
    match decodeFrame (tableStream nbits w) with
    | .ok i _ => some i
    | _ => none

end Sys2Proof
end

