-- ==== Sys2Proof/Config.lean ====
section
/-! DEFINITION. What an implementation fixes before reset (00_scope.md R10, 92_eei_decisions.md D14). -/

namespace Sys2Proof

/-- The open size parameters of the block, "each a natural number or none"; the default is none
(R10, D14). They are constant for the life of an instance; notes/assumptions/3.md says where they are
held and what a configured maximum does. `OFFSET_W` is no parameter of a step: the counters are naturals
(R21), and a premise about it is `Sys2Proof.Machine.OffsetFits` of Safety.lean. -/
structure Config where
  /-- `MAX_FRAME_PAYLOAD` -/
  maxFramePayload : Option Nat := none
  /-- `MAX_MESSAGE_BYTES` -/
  maxMessageBytes : Option Nat := none
deriving DecidableEq, Repr

end Sys2Proof
end

