-- ==== Sys2Proof/Machine/State.lean ====
section
/-! DEFINITION. The state of one instance of the block (10_state.md), as plain data, and its value after reset (R49). The
block has no addressable memory (R46): its storage spaces are byte sequences, held as lists. -/

namespace Sys2Proof.Machine

/-- The decoder's phases (R20). -/
inductive Phase where
  | header
  | payloadLength
  | mask
  | payload
  | complete
deriving DecidableEq, Repr

/-- The type of the message under reassembly (R29). -/
inductive MsgType where
  | none
  | text
  | binary
deriving DecidableEq, Repr

/-- The decode errors of the closed taxonomy (60_exceptions.md R250), raised by DEC. -/
inductive DecError where
  | unknownOpcode
  | nonMinimalLengthEncoding
  | invalidUtf8Text
  | fragmentedControlFrame
deriving DecidableEq, Repr

/-- The events a `FEED` returns (R45). An error carries its name, for the code of R250, and its half-open byte range. -/
inductive Event where
  | message (mtype : MsgType) (data : Bytes)
  | ping (data : Bytes)
  | pong (data : Bytes)
  | close (sym : CloseSym) (reason : Bytes)
  | error (code : DecError) (start stop : Nat)
deriving DecidableEq, Repr

/-- What the operations hand to the host. -/
inductive Output where
  /-- an event emitted by a `DEC.FEED` (00_scope.md R14 `emit`) -/
  | event (e : Event)
  /-- the byte sequence an `ENC.EMIT` returns (R14 `out`, 42_encoder.md R160) -/
  | frame (bytes : Bytes)
  /-- the word a `DEC.STATUS` returns (R37) -/
  | status (word : BitVec 16)
  /-- the byte an `XM.XORBYTE` returns (40_masking.md R134) -/
  | xorByte (b : Byte)
  /-- `CallerContractViolation`, code 5, returned by `ENC.BUILD.CLOSE` (60_exceptions.md R262) -/
  | contractViolation
deriving DecidableEq, Repr

/-- The decoder's registers (R20 to R31). -/
structure DecState where
  /-- `dec.phase` (R20) -/
  phase : Phase
  /-- `dec.inbuf` (R23) -/
  inbuf : Bytes
  /-- `dec.first_byte` (R24) -/
  firstByte : Option Byte
  /-- `dec.second_byte` (R24) -/
  secondByte : Option Byte
  /-- `dec.payload_length` (R25) -/
  payloadLength : Option (BitVec 64)
  /-- `dec.mask_key` (R26) -/
  maskKey : Option Key
  /-- `dec.payload` (R27) -/
  payload : Option Bytes
  /-- `dec.acc` (R28) -/
  acc : Option Bytes
  /-- `dec.msg_type` (R29) -/
  msgType : MsgType
  /-- `dec.dead` (R30) -/
  dead : Bool
  /-- `dec.err_code` (R30) -/
  errCode : BitVec 3
  /-- `dec.offset`, a natural number (R21) -/
  offset : Nat
  /-- `dec.frame_start`, a natural number (R21) -/
  frameStart : Nat
deriving DecidableEq, Repr

/-- The encoder's message register (R38). -/
structure EncState where
  /-- `enc.m_valid` -/
  mValid : Bool
  /-- `enc.m_type` -/
  mType : FrameType
  /-- `enc.m_payload` -/
  mPayload : Bytes
  /-- `enc.m_masked` -/
  mMasked : Bool
  /-- `enc.m_key` -/
  mKey : Option Key
deriving DecidableEq, Repr

/-- The streaming masking engine (R40). -/
structure XmState where
  /-- `xm.key` -/
  key : Option Key
  /-- `xm.idx`, 2 bits -/
  idx : BitVec 2
deriving DecidableEq, Repr

end Sys2Proof.Machine

namespace Sys2Proof.Machine

/-- One instance of the block. `cfg`, `pending` and `outputs` are the model's own fields: the parameters fixed before
reset (notes/assumptions/3.md), the host's operations not yet started, oldest first (notes/assumptions/1.md), and what
the operations have returned so far, oldest first (notes/assumptions/2.md). -/
structure State where
  cfg : Config
  dec : DecState
  enc : EncState
  xm : XmState
  pending : List HostOp
  outputs : List Output
deriving DecidableEq, Repr

/-- The registers that may hold no value (R24 to R27, R38). -/
inductive Register where
  | firstByte
  | secondByte
  | payloadLength
  | maskKey
  | payload
  | encKey
deriving DecidableEq, Repr

/-- Why the machine stops with a fault. Decode errors are no faults: the block goes on, dead (R256). -/
inductive Fault where
  /-- A register that holds none is read: "a modelling fault" (00_scope.md R13; R36, U6). Raised by the phase steps and
  by ENC.EMIT, only in states that no run reaches. Safe. -/
  | readNone (r : Register)
deriving DecidableEq, Repr

/-- Where the spec gives the model no step. -/
inductive Refusal where
  /-- An arm of `exec` without a meaning; no arm is one. Safe. -/
  | notModelled (mnemonic : String)
  /-- ENC.MASK or ENC.EMIT with no message built since reset (42_encoder.md R158, U13). Safe. -/
  | noMessage
  /-- ENC.MASK on a masked message (R159, U1). Safe. -/
  | alreadyMasked
  /-- XM.XORBYTE with no key loaded (40_masking.md R134, U6). Safe. -/
  | noXmKey
  /-- A payload of 2^64 bytes or more: "outside the operand type" (U17). Raised by the builds and ENC.EMIT. Safe. -/
  | payloadTooLong
  /-- A frame's payload_length exceeds a configured MAX_FRAME_PAYLOAD (U2). Raised by DEC.FEED. Safe. -/
  | frameLimit
  /-- `len(dec.acc)` would exceed a configured MAX_MESSAGE_BYTES (U2). Raised by CONT, TEXT, BINARY. Safe. -/
  | messageLimit
  /-- The host transaction `encFrame` on an instruction that is no ENC row: outside its operand type. Safe. -/
  | notAnEncoderRow
deriving DecidableEq, Repr

/-- The outcome of an operation. -/
abbrev Out := Host.Outcome State Fault Refusal

/-- The decoder after DEC.RESET and at creation of an instance (R49, R290). -/
def DecState.reset : DecState where
  phase := .header
  inbuf := []
  firstByte := none
  secondByte := none
  payloadLength := none
  maskKey := none
  payload := none
  acc := none
  msgType := .none
  dead := false
  errCode := 0
  offset := 0
  frameStart := 0

/-- The message register after power-on: `m_valid` 0 (R49); the other four are unspecified there and unobservable, the
values are the model's (notes/assumptions/4.md). -/
def EncState.reset : EncState where
  mValid := false
  mType := .continuation
  mPayload := []
  mMasked := false
  mKey := none

/-- XM after power-on (R49). -/
def XmState.reset : XmState where
  key := none
  idx := 0

/-- Power-on reset: every register of every unit at its reset value (R49, R291), no size limit configured (R10), no
operation pending and nothing returned yet. -/
def State.reset : State where
  cfg := { maxFramePayload := none, maxMessageBytes := none }
  dec := .reset
  enc := .reset
  xm := .reset
  pending := []
  outputs := []

end Sys2Proof.Machine
end

