-- ==== Sys2Proof/Machine/Ops.lean ====
section
/-! DEFINITION. The named operations over the state: sequencing of outcomes, the stream primitives of 00_scope.md R14, error
entry (60_exceptions.md R256) and the one way out of the dead state, DEC.RESET (70_reset_and_hazards.md R290). -/

namespace Sys2Proof.Machine

/-- Go on from a next state; a fault or a refusal stops. -/
def andThen (o : Out) (k : State → Out) : Out :=
  match o with
  | .next s => k s
  | .fault r => .fault r
  | .refused r => .refused r

/-- `avail() = len(dec.inbuf)` (R14). -/
def avail (s : State) : Nat := s.dec.inbuf.length

/-- The state after `take(n)`: the first `n` bytes leave `dec.inbuf` and `dec.offset` advances by `n` (R14). The bytes
taken are `s.dec.inbuf.take n`. -/
def consume (n : Nat) (s : State) : State :=
  { s with dec := { s.dec with inbuf := s.dec.inbuf.drop n, offset := s.dec.offset + n } }

/-- A result is handed to the host, after those handed to it before (R14 `emit` and `out`, R72). -/
def out (o : Output) (s : State) : State := { s with outputs := s.outputs ++ [o] }

/-- `emit(ev)` (R14). -/
def emit (e : Event) (s : State) : State := out (.event e) s

/-- The numeric codes of the decode errors (R250). -/
def errorCode : DecError → BitVec 3
  | .unknownOpcode => 1
  | .nonMinimalLengthEncoding => 2
  | .invalidUtf8Text => 3
  | .fragmentedControlFrame => 4

/-- The code of `CallerContractViolation` (R250, R262). -/
def contractViolationCode : BitVec 3 := 5

/-- The event tags (10_state.md R45). -/
def eventTag : Event → Nat
  | .message _ _ => 1
  | .ping _ => 2
  | .pong _ => 3
  | .close _ _ => 4
  | .error _ _ _ => 5

/-- Error entry, `raise E`: the error is emitted with the byte range `[frame_start, offset)`, the decoder is dead with
the error's code, the unconsumed input is discarded, and every other register keeps its value (R256). -/
def raise (e : DecError) (s : State) : State :=
  emit (.error e s.dec.frameStart s.dec.offset)
    { s with dec := { s.dec with dead := true, errCode := errorCode e, inbuf := [] } }

/-- DEC.RESET, the only way out of the dead state: every `dec.*` register takes its reset value; ENC and XM are not
touched and nothing is emitted (R259, R290). -/
def decReset (s : State) : State := { s with dec := .reset }

/-- The reset of the per-frame scratch fields after a completed frame, to start the next one at `header`
(43_decoder_phases.md R185). -/
def clearScratch (s : State) : State :=
  { s with dec := { s.dec with
      firstByte := none, secondByte := none, maskKey := none, payloadLength := none, payload := none, phase := .header } }

/-- A completed frame acts on a live decoder only (R185 "enabled when `dec.dead` = 0"; R258;
notes/assumptions/8.md). -/
def whenLive (s : State) (k : State → Out) : Out :=
  match s.dec.dead with
  | true => .next s
  | false => k s

/-- The accumulated bytes; an absent and an empty buffer hold the same bytes (R28). -/
def accBytes (d : DecState) : Bytes := d.acc.getD []

/-- Is a frame of `n` payload bytes within a configured MAX_FRAME_PAYLOAD (R10, U2)? -/
def allowsFrame (c : Config) (n : Nat) : Bool :=
  match c.maxFramePayload with
  | none => true
  | some m => decide (n ≤ m)

/-- Is an accumulated message of `n` bytes within a configured MAX_MESSAGE_BYTES (R10, U2)? -/
def allowsMessage (c : Config) (n : Nat) : Bool :=
  match c.maxMessageBytes with
  | none => true
  | some m => decide (n ≤ m)

end Sys2Proof.Machine
end

