-- ==== Sys2Proof/Machine/Encoder.lean ====
section
/-! DEFINITION. ENC (42_encoder.md): the build, mask and emit operations on the message register, and the six ENC rows of
opcode_table.json, each a build, a mask if a key is given, and an emit (R150; notes/assumptions/5.md). -/

namespace Sys2Proof.Machine

/-- `build(t, payload)` (42_encoder.md section 2): the whole message register is written. A payload of 2^64 bytes or
more is outside the operand type (U17). -/
def build (t : FrameType) (p : Bytes) (s : State) : Out :=
  match payloadFits p with
  | false => .refused .payloadTooLong
  | true => .next { s with enc := { mValid := true, mType := t, mPayload := p, mMasked := false, mKey := none } }

/-- ENC.BUILD.TEXT (R151). -/
def buildText (p : Bytes) (s : State) : Out := build .text p s

/-- ENC.BUILD.BINARY (R152). -/
def buildBinary (p : Bytes) (s : State) : Out := build .binary p s

/-- ENC.BUILD.CONT (R153). -/
def buildCont (p : Bytes) (s : State) : Out := build .continuation p s

/-- ENC.BUILD.PING (R154). -/
def buildPing (p : Bytes) (s : State) : Out := build .ping p s

/-- ENC.BUILD.PONG (R155). -/
def buildPong (p : Bytes) (s : State) : Out := build .pong p s

/-- `reject CallerContractViolation`: the violation is returned, no state is written and no byte produced
(60_exceptions.md R262). -/
def reject (s : State) : State := out .contractViolation s

/-- ENC.BUILD.CLOSE (R156). -/
def buildClose (p : Bytes) (status : Option (BitVec 16)) (reason : Option Bytes) (s : State) : Out :=
  match closeViolates status reason with
  | true => .next (reject s)
  | false => build .close (closePayload p status reason) s

/-- ENC.MASK (R157), defined only on a built message (R158) that is not masked yet (R159). -/
def maskMessage (k : Key) (s : State) : Out :=
  match s.enc.mValid, s.enc.mMasked with
  | false, _ => .refused .noMessage
  | true, true => .refused .alreadyMasked
  | true, false =>
    .next { s with enc := { s.enc with mKey := some k, mMasked := true, mPayload := mask s.enc.mPayload k } }

/-- The byte sequence of one frame: header, extended length, key, payload as the register holds it (R160). -/
def emitBytes (t : FrameType) (key : Option Key) (p : Bytes) : Bytes :=
  [encFirstByte t, secondByteOf key.isSome (lenEncode (payloadLen p)).len7] ++ (lenEncode (payloadLen p)).ext
    ++ key.elim [] keyBytes ++ p

/-- ENC.EMIT (R160), defined only on a built message (R158); the register is read and not written. A masked message
without a key is a read of a register that holds none (R13); R39 excludes it. -/
def emitMessage (s : State) : Out :=
  match s.enc.mValid, payloadFits s.enc.mPayload with
  | false, _ => .refused .noMessage
  | true, false => .refused .payloadTooLong
  | true, true =>
    match s.enc.mMasked, s.enc.mKey with
    | false, _ => .next (out (.frame (emitBytes s.enc.mType none s.enc.mPayload)) s)
    | true, some k => .next (out (.frame (emitBytes s.enc.mType (some k) s.enc.mPayload)) s)
    | true, none => .fault (.readNone .encKey)

/-- The part of an ENC row after its build: mask if there is a key, then emit (R150). -/
def maskThenEmit (key : Option Key) (s : State) : Out :=
  match key with
  | none => emitMessage s
  | some k => andThen (maskMessage k s) emitMessage

/-- ENC.CONT (R153, R157, R160). -/
def execEncCont (key : Option Key) (p : Bytes) (s : State) : Out := andThen (buildCont p s) (maskThenEmit key)

/-- ENC.TEXT (R151, R157, R160). -/
def execEncText (key : Option Key) (p : Bytes) (s : State) : Out := andThen (buildText p s) (maskThenEmit key)

/-- ENC.BINARY (R152, R157, R160). -/
def execEncBinary (key : Option Key) (p : Bytes) (s : State) : Out := andThen (buildBinary p s) (maskThenEmit key)

/-- ENC.CLOSE (R156, R157, R160): a contract violation ends it "before any bytes are produced". -/
def execEncClose (key : Option Key) (p : Bytes) (status : Option (BitVec 16)) (reason : Option Bytes) (s : State) : Out :=
  match closeViolates status reason with
  | true => buildClose p status reason s
  | false => andThen (buildClose p status reason s) (maskThenEmit key)

/-- ENC.PING (R154, R157, R160). -/
def execEncPing (key : Option Key) (p : Bytes) (s : State) : Out := andThen (buildPing p s) (maskThenEmit key)

/-- ENC.PONG (R155, R157, R160). -/
def execEncPong (key : Option Key) (p : Bytes) (s : State) : Out := andThen (buildPong p s) (maskThenEmit key)

end Sys2Proof.Machine
end

