-- ==== Sys2Proof/Machine/Frames.lean ====
section
/-! DEFINITION. What a completed frame does, one meaning per DEC row of opcode_table.json (44_frame_completion.md R210 to
R223). The operands are the fields of the completed frame; `f.payload` is what `dec.payload` holds at the complete step
(R210; notes/assumptions/9.md). The scratch reset after it is the complete step's (Machine/Feed.lean). -/

namespace Sys2Proof.Machine

/-- `accumulate()`: the payload is appended to the accumulated message, which is created if absent (R212). A configured
MAX_MESSAGE_BYTES that it would exceed gives no step (U2). -/
def accumulate (p : Bytes) (s : State) : Out :=
  match allowsMessage s.cfg (accBytes s.dec ++ p).length with
  | false => .refused .messageLimit
  | true => .next { s with dec := { s.dec with acc := some (accBytes s.dec ++ p) } }

/-- `dec.msg_type <- t` (R213, R214). -/
def setMsgType (t : MsgType) (s : State) : State := { s with dec := { s.dec with msgType := t } }

/-- The message leaves and the accumulation is cleared (R216, the part after validation). -/
def deliver (s : State) : State :=
  emit (.message s.dec.msgType (accBytes s.dec)) { s with dec := { s.dec with acc := none, msgType := .none } }

/-- Is the accumulated message one that UTF-8 validation rejects (R216)? -/
def rejectsText (d : DecState) : Bool := d.msgType == .text && !utf8Wf (accBytes d)

/-- `deliver_message()` (R216). -/
def deliverMessage (s : State) : State :=
  match rejectsText s.dec with
  | true => raise .invalidUtf8Text s
  | false => deliver s

/-- "if fin = 1: deliver_message()" (R212 to R214). -/
def endOfFragment (fin : Bool) (s : State) : State :=
  match fin with
  | true => deliverMessage s
  | false => s

/-- CONT (R212): append; deliver if FIN, with the type the message has (R223). -/
def execCont (f : Frame) (s : State) : Out :=
  whenLive s fun s => andThen (accumulate f.payload s) fun s => .next (endOfFragment f.fin s)

/-- TEXT (R213): append; the message is text from here on; deliver if FIN. -/
def execText (f : Frame) (s : State) : Out :=
  whenLive s fun s => andThen (accumulate f.payload s) fun s => .next (endOfFragment f.fin (setMsgType .text s))

/-- BINARY (R214): append; the message is binary from here on; deliver if FIN, unvalidated. -/
def execBinary (f : Frame) (s : State) : Out :=
  whenLive s fun s => andThen (accumulate f.payload s) fun s => .next (endOfFragment f.fin (setMsgType .binary s))

/-- A control frame: with FIN its event, without FIN `FragmentedControlFrame`; reassembly is untouched (R221, R222). -/
def controlFrame (fin : Bool) (e : Event) (s : State) : State :=
  match fin with
  | true => emit e s
  | false => raise .fragmentedControlFrame s

/-- CLOSE (R217): the event of the payload's status symbol and reason; the decoder goes on. -/
def execClose (f : Frame) (s : State) : Out :=
  whenLive s fun s =>
    .next (controlFrame f.fin (.close (closeMeaning f.payload).1 (closeMeaning f.payload).2) s)

/-- PING (R218). -/
def execPing (f : Frame) (s : State) : Out :=
  whenLive s fun s => .next (controlFrame f.fin (.ping f.payload) s)

/-- PONG (R219). -/
def execPong (f : Frame) (s : State) : Out :=
  whenLive s fun s => .next (controlFrame f.fin (.pong f.payload) s)

/-- A reserved opcode raises `UnknownOpcode` before any side effect (R211). -/
def reservedFrame (s : State) : Out := whenLive s fun s => .next (raise .unknownOpcode s)

/-- RSVD_3 (R211), whatever the frame's fields. -/
def execRsvd3 (_f : Frame) (s : State) : Out := reservedFrame s

/-- RSVD_4_7 (R211), whatever the opcode's low bits and the frame's fields. -/
def execRsvd4to7 (_lo : BitVec 2) (_f : Frame) (s : State) : Out := reservedFrame s

/-- RSVD_11 (R211), whatever the frame's fields. -/
def execRsvd11 (_f : Frame) (s : State) : Out := reservedFrame s

/-- RSVD_12_15 (R211), whatever the opcode's low bits and the frame's fields. -/
def execRsvd12to15 (_lo : BitVec 2) (_f : Frame) (s : State) : Out := reservedFrame s

end Sys2Proof.Machine
end

