-- ==== Sys2Proof/Machine/Dispatch.lean ====
section
/-! DEFINITION. One arm per row of opcode_table.json: the dispatch of 44_frame_completion.md R210 for the DEC rows, the ENC
rows of 42_encoder.md beside them. -/

namespace Sys2Proof.Machine

def exec (i : Instr) (s : State) : Host.Outcome State Fault Refusal :=
  match i with
  | .cont f => Sys2Proof.Machine.execCont f s
  | .text f => Sys2Proof.Machine.execText f s
  | .binary f => Sys2Proof.Machine.execBinary f s
  | .rsvd3 f => Sys2Proof.Machine.execRsvd3 f s
  | .rsvd4to7 lo f => Sys2Proof.Machine.execRsvd4to7 lo f s
  | .close f => Sys2Proof.Machine.execClose f s
  | .ping f => Sys2Proof.Machine.execPing f s
  | .pong f => Sys2Proof.Machine.execPong f s
  | .rsvd11 f => Sys2Proof.Machine.execRsvd11 f s
  | .rsvd12to15 lo f => Sys2Proof.Machine.execRsvd12to15 lo f s
  | .encCont k p => Sys2Proof.Machine.execEncCont k p s
  | .encText k p => Sys2Proof.Machine.execEncText k p s
  | .encBinary k p => Sys2Proof.Machine.execEncBinary k p s
  | .encClose k p st r => Sys2Proof.Machine.execEncClose k p st r s
  | .encPing k p => Sys2Proof.Machine.execEncPing k p s
  | .encPong k p => Sys2Proof.Machine.execEncPong k p s

end Sys2Proof.Machine
end

