-- ==== Sys2Proof/Machine/Feed.lean ====
section
/-! DEFINITION. DEC's phases and DEC.FEED (43_decoder_phases.md R180 to R187): this is where the block fetches its
instructions. The header, payload-length, mask and payload steps take a frame off the input stream; the complete step
executes it. -/

namespace Sys2Proof.Machine

/-- Header step (R181). -/
def headerStep (s : State) : State :=
  { consume 2 s with dec := { (consume 2 s).dec with
      frameStart := s.dec.offset, firstByte := s.dec.inbuf[0]?, secondByte := s.dec.inbuf[1]?, phase := .payloadLength } }

/-- The end of the payload-length step once the extended bytes are taken (R182); a configured MAX_FRAME_PAYLOAD that the
length exceeds gives no step (U2). -/
def resolveLength (second : Byte) (r : LenResult) (s : State) : Out :=
  match r with
  | .nonMinimal => .next (raise .nonMinimalLengthEncoding s)
  | .ok len =>
    match allowsFrame s.cfg len.toNat with
    | false => .refused .frameLimit
    | true =>
      .next { s with dec := { s.dec with
          payloadLength := some len, phase := if maskedOf second then .mask else .payload } }

/-- Payload-length step (R182). -/
def lengthStep (s : State) : Out :=
  match s.dec.secondByte with
  | none => .fault (.readNone .secondByte)
  | some b =>
    resolveLength b (lenDecode (len7Of b) (s.dec.inbuf.take (extSize (len7Of b)))) (consume (extSize (len7Of b)) s)

/-- Mask step (R183). -/
def maskStep (s : State) : State :=
  { consume 4 s with dec := { (consume 4 s).dec with
      maskKey := keyOfBytes (s.dec.inbuf.take 4), phase := .payload } }

/-- The payload step with its length, key and bytes read (R184). -/
def takePayload (len : Nat) (key : Option Key) (s : State) : State :=
  { consume len s with dec := { (consume len s).dec with
      payload := some (maskOpt (s.dec.inbuf.take len) key), phase := .complete } }

/-- Payload step (R184). -/
def payloadStep (s : State) : Out :=
  match s.dec.payloadLength, s.dec.secondByte with
  | none, _ => .fault (.readNone .payloadLength)
  | some _, none => .fault (.readNone .secondByte)
  | some len, some b =>
    match maskedOf b, s.dec.maskKey with
    | false, _ => .next (takePayload len.toNat none s)
    | true, some k => .next (takePayload len.toNat (some k) s)
    | true, none => .fault (.readNone .maskKey)

/-- The scratch reset follows a completion that did not raise (R185). -/
def afterCompletion (s : State) : State :=
  match s.dec.dead with
  | true => s
  | false => clearScratch s

/-- The completed frame, an instruction, from the scratch fields (R32, R210). -/
def completedInstr (first : Byte) (key : Option Key) (p : Bytes) : Instr :=
  decodeOpcode (opcodeOf first) ⟨finOf first, rsvOf first, key, p⟩

/-- Complete step (R185): the frame is executed. -/
def completeStep (s : State) : Out :=
  match s.dec.firstByte, s.dec.payload with
  | none, _ => .fault (.readNone .firstByte)
  | some _, none => .fault (.readNone .payload)
  | some first, some p =>
    andThen (exec (completedInstr first s.dec.maskKey p) s) fun s => .next (afterCompletion s)

/-- Are the bytes buffered that the phase needs (R180, "Precondition to advance")? A phase whose scratch field is missing
counts as ready, so that its step faults. -/
def phaseReady (d : DecState) : Bool :=
  match d.phase with
  | .header => decide (2 ≤ d.inbuf.length)
  | .payloadLength => decide (d.secondByte.elim 0 (fun b => extSize (len7Of b)) ≤ d.inbuf.length)
  | .mask => decide (4 ≤ d.inbuf.length)
  | .payload => decide (d.payloadLength.elim 0 BitVec.toNat ≤ d.inbuf.length)
  | .complete => true

/-- Is the step of `dec.phase` enabled (R181 to R185)? -/
def enabled (d : DecState) : Bool := !d.dead && phaseReady d

/-- The step of `dec.phase` (R181 to R185). -/
def phaseStep (s : State) : Out :=
  match s.dec.phase with
  | .header => .next (headerStep s)
  | .payloadLength => lengthStep s
  | .mask => .next (maskStep s)
  | .payload => payloadStep s
  | .complete => completeStep s

/-- `advance()` runs enabled steps until none is enabled (R186), here at most `fuel` of them. -/
def advance : Nat → State → Out
  | 0, s => .next s
  | fuel + 1, s =>
    match enabled s.dec with
    | true => andThen (phaseStep s) (advance fuel)
    | false => .next s

/-- Steps enough for any input: a header step consumes two bytes and at most four other steps lie between two of them
(R186). -/
def advanceFuel (d : DecState) : Nat := 3 * d.inbuf.length + 5

/-- `dec.inbuf <- dec.inbuf ++ chunk` (R187). -/
def buffer (chunk : Bytes) (s : State) : State := { s with dec := { s.dec with inbuf := s.dec.inbuf ++ chunk } }

/-- DEC.FEED (R187): a dead decoder discards the chunk (R258); a live one buffers it and advances. The events appended
to the outputs are the list it returns. -/
def feed (chunk : Bytes) (s : State) : Out :=
  match s.dec.dead with
  | true => .next s
  | false => advance (advanceFuel (buffer chunk s).dec) (buffer chunk s)

end Sys2Proof.Machine
end

