-- ==== Sys2Proof/Machine/Status.lean ====
section
/-! DEFINITION. The DEC.STATUS view (10_state.md R37, 43_decoder_phases.md R191). -/

namespace Sys2Proof.Machine

/-- The phase codes (R20). -/
def phaseCode : Phase → Nat
  | .header => 0
  | .payloadLength => 1
  | .mask => 2
  | .payload => 3
  | .complete => 4

/-- The message-type codes (R29). -/
def msgTypeCode : MsgType → Nat
  | .none => 0
  | .text => 1
  | .binary => 2

/-- `zext_16(phase_code + 8*dec.dead + 16*dec.err_code + 128*acc_valid + 256*msg_type_code)` (R191). -/
def statusWord (d : DecState) : BitVec 16 :=
  BitVec.ofNat 16 (phaseCode d.phase + 8 * d.dead.toNat + 16 * d.errCode.toNat + 128 * d.acc.isSome.toNat
    + 256 * msgTypeCode d.msgType)

/-- DEC.STATUS (R191): the word is returned and nothing changes. -/
def decStatus (s : State) : State := out (.status (statusWord s.dec)) s

end Sys2Proof.Machine
end

