-- ==== Sys2Proof/Machine/Xm.lean ====
section
/-! DEFINITION. XM as a streaming engine (40_masking.md R133, R134). -/

namespace Sys2Proof.Machine

/-- XM.LOADKEY (R133). -/
def xmLoadKey (k : Key) (s : State) : State := { s with xm := { key := some k, idx := 0 } }

/-- XM.XORBYTE (R134): returns the byte under the key byte at `xm.idx` and advances `xm.idx` modulo 4; refused with no
key loaded. -/
def xmXorByte (b : Byte) (s : State) : Out :=
  match s.xm.key with
  | none => .refused .noXmKey
  | some k =>
    .next (out (.xorByte (b ^^^ keyByte k s.xm.idx.toNat)) { s with xm := { s.xm with idx := s.xm.idx + 1 } })

end Sys2Proof.Machine
end

