-- ==== Sys2Proof/Machine/HostOps.lean ====
section
/-! DEFINITION. The host operations as transactions on the instance (30_encoding.md R106), the next one of the pending
list, and how a word of the opcode table comes to stand there. -/

namespace Sys2Proof.Machine

/-- An ENC row run as a whole (R150; notes/assumptions/5.md). -/
def encFrame (i : Instr) (s : State) : Out :=
  match i.isEncoder with
  | true => exec i s
  | false => .refused .notAnEncoderRow

/-- One host operation, run to completion (20_memory.md R71). -/
def runOp (op : HostOp) (s : State) : Out :=
  match op with
  | .decReset => .next (decReset s)
  | .decFeed chunk => feed chunk s
  | .decStatus => .next (decStatus s)
  | .encBuildText p => buildText p s
  | .encBuildBinary p => buildBinary p s
  | .encBuildCont p => buildCont p s
  | .encBuildPing p => buildPing p s
  | .encBuildPong p => buildPong p s
  | .encBuildClose p st r => buildClose p st r s
  | .encMask k => maskMessage k s
  | .encEmit => emitMessage s
  | .xmLoadKey k => .next (xmLoadKey k s)
  | .xmXorByte b => xmXorByte b s
  | .encFrame i => encFrame i s

/-- The oldest pending operation is taken and run; with none pending the block holds its state (R269;
notes/assumptions/1.md). -/
def runNext (s : State) : Out :=
  match s.pending with
  | [] => .next s
  | op :: rest => runOp op { s with pending := rest }

/-- The operation that runs a word of the opcode table: an ENC row as an encoder transaction, a DEC row as a FEED of the
frame's bytes; a word that spells no frame is fed as the header and length bytes it is. -/
def wordOp (nbits w : Nat) : HostOp :=
  match decodeTableWord nbits w with
  | some i =>
    match i.isEncoder with
    | true => .encFrame i
    | false => .decFeed (encode i)
  | none => .decFeed (tableStream nbits w)

/-- The decoder live, at a frame boundary and with nothing buffered; the message under reassembly and the stream position
stay. -/
def atFrameBoundary (s : State) : State :=
  { clearScratch s with dec := { (clearScratch s).dec with inbuf := [], dead := false, errCode := 0 } }

/-- The word stands first in the pending list and the decoder is where it takes a frame's first byte
(notes/assumptions/7.md). -/
def loadWord (nbits w : Nat) (s : State) : State :=
  { atFrameBoundary s with pending := wordOp nbits w :: s.pending }

end Sys2Proof.Machine
end

