-- ==== Sys2Proof/Machine/Step.lean ====
section
/-! DEFINITION. One step of the machine: one host operation (20_memory.md R71, 70_reset_and_hazards.md R308). -/

namespace Sys2Proof.Machine

/-- The next host operation, run to completion; see `runNext`. -/
def step (s : State) : Host.Outcome State Fault Refusal := runNext s

/-- `s` with a word of the opcode table as the next instruction; see `loadWord`. -/
def State.withFetchWord (s : State) (nbits w : Nat) : State := loadWord nbits w s

end Sys2Proof.Machine
end

