-- ==== Sys2Proof/Safety.lean ====
section
/-! DEFINITION. The terms claims use: the invariant of the states between two operations (10_state.md R30, R35, R39), what
a list of outputs reports, and the end of a run (70_reset_and_hazards.md R310). -/

namespace Sys2Proof.Machine

/-- Which scratch fields hold a value in which phase, between two operations on a live decoder, and how much input may be
left buffered (10_state.md R35). The resolved length is the one its length code stands for (41_length_codec.md R145). -/
def ScratchValid (d : DecState) : Prop :=
  match d.phase with
  | .header =>
    d.firstByte = none ∧ d.secondByte = none ∧ d.payloadLength = none ∧ d.maskKey = none ∧ d.payload = none
      ∧ d.inbuf.length ≤ 1
  | .payloadLength =>
    ∃ first second, d.firstByte = some first ∧ d.secondByte = some second ∧ d.payloadLength = none ∧ d.maskKey = none
      ∧ d.payload = none ∧ d.inbuf.length < extSize (len7Of second)
  | .mask =>
    ∃ first second len, d.firstByte = some first ∧ d.secondByte = some second ∧ d.payloadLength = some len
      ∧ d.maskKey = none ∧ d.payload = none ∧ maskedOf second = true ∧ (lenEncode len).len7 = len7Of second
      ∧ d.inbuf.length ≤ 3
  | .payload =>
    ∃ first second len, d.firstByte = some first ∧ d.secondByte = some second ∧ d.payloadLength = some len
      ∧ d.maskKey.isSome = maskedOf second ∧ d.payload = none ∧ (lenEncode len).len7 = len7Of second
      ∧ d.inbuf.length < len.toNat
  | .complete => False

/-- The dead decoder: the input is discarded, and it stays in the phase in which the error was raised
(43_decoder_phases.md R191, 60_exceptions.md R256). -/
def DeadValid (d : DecState) : Prop :=
  d.inbuf = [] ∧
    ((d.phase = .payloadLength ∧ d.errCode = 2) ∨ (d.phase = .complete ∧ (d.errCode = 1 ∨ d.errCode = 3 ∨ d.errCode = 4)))

/-- The decoder between two operations (R21, R28 to R30, R35). -/
def DecInv (d : DecState) : Prop :=
  d.frameStart ≤ d.offset ∧ (d.acc = none → d.msgType = .none)
    ∧ (d.dead = false → d.errCode = 0 ∧ ScratchValid d) ∧ (d.dead = true → DeadValid d)

/-- The message register while it is valid: a key iff masked, and a payload that a length class fits (R39). -/
def EncInv (e : EncState) : Prop :=
  e.mValid = true → e.mKey.isSome = e.mMasked ∧ e.mPayload.length < 2 ^ 64

/-- The invariant of the states between two operations. -/
def Inv (s : State) : Prop := DecInv s.dec ∧ EncInv s.enc

/-- The fields of the frame of a DEC row; an ENC row has none. -/
def frameOf : Instr → Option Frame
  | .cont f => some f
  | .text f => some f
  | .binary f => some f
  | .rsvd3 f => some f
  | .rsvd4to7 _ f => some f
  | .close f => some f
  | .ping f => some f
  | .pong f => some f
  | .rsvd11 f => some f
  | .rsvd12to15 _ f => some f
  | .encCont _ _ => none
  | .encText _ _ => none
  | .encBinary _ _ => none
  | .encClose _ _ _ _ => none
  | .encPing _ _ => none
  | .encPong _ _ => none

/-- The decoder at a frame boundary with nothing buffered: where the next byte fed is a frame's first (R292). -/
def AtFrameStart (d : DecState) : Prop :=
  d.dead = false ∧ d.phase = .header ∧ d.inbuf = [] ∧ d.firstByte = none ∧ d.secondByte = none ∧ d.payloadLength = none
    ∧ d.maskKey = none ∧ d.payload = none

/-- The state in which a frame of `n` bytes with header bytes `first`, `second` and fields `f`, fetched from a frame
boundary, is executed: its scratch fields loaded, phase COMPLETE, and the stream position past it
(43_decoder_phases.md R181 to R185). -/
def fetched (first second : Byte) (f : Frame) (n : Nat) (s : State) : State :=
  { s with dec := { s.dec with
      phase := .complete, firstByte := some first, secondByte := some second,
      payloadLength := some (payloadLen f.payload), maskKey := f.key, payload := some f.payload,
      frameStart := s.dec.offset, offset := s.dec.offset + n } }

/-- A piece of a message in progress: a CONT frame without FIN, or a control frame with FIN between two fragments. -/
def IsPiece (i : Instr) : Prop :=
  ∃ f : Frame, (i = .cont f ∧ f.fin = false) ∨ ((i = .ping f ∨ i = .pong f ∨ i = .close f) ∧ f.fin = true)

/-- What a piece adds to the message: a CONT frame its payload, a control frame nothing (44_frame_completion.md R221). -/
def pieceData : Instr → Option Bytes
  | .cont f => some f.payload
  | .text _ => none
  | .binary _ => none
  | .rsvd3 _ => none
  | .rsvd4to7 _ _ => none
  | .close _ => none
  | .ping _ => none
  | .pong _ => none
  | .rsvd11 _ => none
  | .rsvd12to15 _ _ => none
  | .encCont _ _ => none
  | .encText _ _ => none
  | .encBinary _ _ => none
  | .encClose _ _ _ _ => none
  | .encPing _ _ => none
  | .encPong _ _ => none

/-- The event of a control frame with FIN (R217 to R219). -/
def pieceEvent : Instr → Option Event
  | .cont _ => none
  | .text _ => none
  | .binary _ => none
  | .rsvd3 _ => none
  | .rsvd4to7 _ _ => none
  | .close f => some (.close (closeMeaning f.payload).1 (closeMeaning f.payload).2)
  | .ping f => some (.ping f.payload)
  | .pong f => some (.pong f.payload)
  | .rsvd11 _ => none
  | .rsvd12to15 _ _ => none
  | .encCont _ _ => none
  | .encText _ _ => none
  | .encBinary _ _ => none
  | .encClose _ _ _ _ => none
  | .encPing _ _ => none
  | .encPong _ _ => none

/-- Frames executed one after the other. -/
def execAll : List Instr → State → Out
  | [], s => .next s
  | i :: is, s => andThen (exec i s) (execAll is)

/-- The unit a phase consumes, all or nothing (20_memory.md R66): 2 header bytes, 0, 2 or 8 length bytes, 4 key bytes,
`payload_length` payload bytes. -/
def phaseUnit (d : DecState) : Option Nat :=
  match d.phase with
  | .header => some 2
  | .payloadLength => d.secondByte.map fun b => extSize (len7Of b)
  | .mask => some 4
  | .payload => d.payloadLength.map BitVec.toNat
  | .complete => none

/-- The premise of a claim about hardware whose counters are `w` bits wide (R21, U16). -/
def OffsetFits (w : Nat) (s : State) : Prop := s.dec.offset < 2 ^ w

/-- Is the output an EV_ERROR? -/
def isErrorOutput : Output → Bool
  | .event (.error _ _ _) => true
  | .event (.message _ _) => false
  | .event (.ping _) => false
  | .event (.pong _) => false
  | .event (.close _ _) => false
  | .frame _ => false
  | .status _ => false
  | .xorByte _ => false
  | .contractViolation => false

/-- How many EV_ERROR the outputs hold (60_exceptions.md R254, R271). -/
def errorCount (os : List Output) : Nat := os.countP isErrorOutput

/-- "the run has decoded its input completely" (R310). -/
def DecodedAll (s : State) : Prop := s.dec.dead = false ∧ s.dec.phase = .header ∧ s.dec.inbuf = []

/-- "it has moreover left no message unfinished" (R310). -/
def NoMessageLeft (s : State) : Prop := DecodedAll s ∧ s.dec.acc = none

/-- The host operations of DEC, of ENC and of XM (00_scope.md R18). -/
def isDecOp : HostOp → Bool
  | .decReset => true
  | .decFeed _ => true
  | .decStatus => true
  | .encBuildText _ => false
  | .encBuildBinary _ => false
  | .encBuildCont _ => false
  | .encBuildPing _ => false
  | .encBuildPong _ => false
  | .encBuildClose _ _ _ => false
  | .encMask _ => false
  | .encEmit => false
  | .xmLoadKey _ => false
  | .xmXorByte _ => false
  | .encFrame _ => false

/-- See `isDecOp`. -/
def isEncOp : HostOp → Bool
  | .decReset => false
  | .decFeed _ => false
  | .decStatus => false
  | .encBuildText _ => true
  | .encBuildBinary _ => true
  | .encBuildCont _ => true
  | .encBuildPing _ => true
  | .encBuildPong _ => true
  | .encBuildClose _ _ _ => true
  | .encMask _ => true
  | .encEmit => true
  | .xmLoadKey _ => false
  | .xmXorByte _ => false
  | .encFrame _ => true

/-- Bytes that are a concatenation of zero or more groups, each matching one row of the table of
44_frame_completion.md R220 over its whole length. -/
inductive Utf8Groups : Bytes → Prop where
  | nil : Utf8Groups []
  | group (row : Utf8Row) (g rest : Bytes) (mem : row ∈ utf8Rows) (len : g.length = row.length)
      (fits : rowMatches row g = true) (more : Utf8Groups rest) : Utf8Groups (g ++ rest)

end Sys2Proof.Machine
end

