-- ==== Sys2Proof/Certificates/Slice0/Obligations.lean ====
section
/-! DEFINITION. The statements for the provers. A docstring names the rules of spec/ a statement formalises; "D<n>" marks a
decision of 92_eei_decisions.md it rests on, "log <n>" an entry of notes/assumptions. -/

open Sys2Proof Sys2Proof.Machine

/-! ### Reset and the invariant -/

/-- The registers of every unit after power-on reset, where the spec gives a value (10_state.md section 9, D16). -/
def Obligations.ResetLeavesTheSpecsValues : Prop :=
  State.reset.dec =
      { phase := .header, inbuf := [], firstByte := none, secondByte := none, payloadLength := none, maskKey := none,
        payload := none, acc := none, msgType := .none, dead := false, errCode := 0, offset := 0, frameStart := 0 }
    ∧ State.reset.enc.mValid = false ∧ State.reset.xm = { key := none, idx := 0 }

/-- The invariant of R30, R35 and R39 holds after reset. -/
def Obligations.ResetMeetsInvariant : Prop := Inv State.reset

/-- From every state that meets the invariant, one host operation leads to a state that meets it: the scratch fields are
valid for the phase, no phase step is left enabled, a dead decoder is frozen with a code, a masked message has its key
(10_state.md sections 2 to 5; decisions D3, D20). -/
def Obligations.StepKeepsInvariant : Prop := ∀ s t : State, Inv s → step s = .next t → Inv t

/-- No step from a state that meets the invariant reads a register that holds none (10_state.md R36; 60_exceptions.md
R260). -/
def Obligations.StepNeverFaultsUnderInvariant : Prop := ∀ (s : State) (r : Fault), Inv s → step s ≠ .fault r

/-- Without size limits FEED completes on every byte string: "the decoder is total on any byte stream" (30_encoding.md
section 4, 70_reset_and_hazards.md section 4; decisions D7, D8, D9, D14). -/
def Obligations.FeedIsTotalWithoutLimits : Prop :=
  ∀ (s : State) (chunk : Bytes), Inv s → s.cfg = ⟨none, none⟩ → ∃ t, runOp (.decFeed chunk) s = .next t

/-! ### Encoding -/

/-- Words written out bit by bit from the layout of 30_encoding.md section 1 and the opcode map of section 4: FIN, RSV,
opcode; mask bit, length code. The second word, read as FIN 0 and rsv 7, rests on general knowledge the spec supplies (GK1)
and the model takes over: log 10, PRESUMED. -/
def Obligations.HeaderWordsDecodeByTheTable : Prop :=
  decodeFrame [0b10000001#8, 0b00000010#8, 0x48, 0x69] = .ok (.text ⟨true, 0, none, [0x48, 0x69]⟩) []
    ∧ decodeFrame [0b01110000#8, 0b00000001#8, 0x41] = .ok (.cont ⟨false, 7, none, [0x41]⟩) []
    ∧ decodeFrame [0b10001001#8, 0b10000001#8, 0x37, 0xfa, 0x21, 0x3d, 0x7f]
        = .ok (.ping ⟨true, 0, some ⟨0x37, 0xfa, 0x21, 0x3d⟩, [0x48]⟩) []
    ∧ decodeFrame [0b00000110#8, 0b00000000#8] = .ok (.rsvd4to7 2 ⟨false, 0, none, []⟩) []
    ∧ decodeEncoderFrame [0b10001000#8, 0b00000010#8, 0x03, 0xe9] = .ok (.encClose none [0x03, 0xe9] none none) []
    ∧ decodeEncoderFrame [0b00000000#8, 0b10000000#8, 1, 2, 3, 4] = .ok (.encCont (some ⟨1, 2, 3, 4⟩) []) []

/-- Decoding the bytes of a well-formed received frame, whatever follows them, gives the frame back with every field at
every value: FIN, RSV (places: GK1, log 10), opcode, key, payload, in every length class (30_encoding.md sections 1 to 4;
decision D8). -/
def Obligations.DecodeOfEncodeReceivedFrame : Prop :=
  ∀ (i : Instr) (rest : Bytes), i.isEncoder = false → i.wellFormed = true → decodeFrame (encode i ++ rest) = .ok i rest

/-- The same for the ENC rows; a close built from status and reason is read back as the close of the payload they pack to,
which has the same bytes (42_encoder.md R156). -/
def Obligations.DecodeOfEncodeEmittedFrame : Prop :=
  ∀ (i : Instr) (rest : Bytes), i.isEncoder = true → i.wellFormed = true →
    decodeEncoderFrame (encode i ++ rest) = .ok i.onWire rest

/-- Every frame has one encoding: bytes the decoder accepts are the encoding of what it reads, followed by the rest, and
what it reads is well formed (30_encoding.md sections 2 to 4, 41_length_codec.md section 4; places of FIN and RSV: GK1, log
10). -/
def Obligations.AcceptedBytesAreTheEncoding : Prop :=
  ∀ (bytes rest : Bytes) (i : Instr), decodeFrame bytes = .ok i rest → encode i ++ rest = bytes ∧ i.wellFormed = true

/-- Every header word belongs to exactly one DEC row of opcode_table.json, the one its opcode is decoded to: "All sixteen
values are classified" (30_encoding.md section 4 and section 6). -/
def Obligations.EveryHeaderWordHasOneReceivedRow : Prop :=
  ∀ (first second : Byte) (f : Frame),
    headerRow (decodeOpcode (opcodeOf first) f) ∈ decRows ∧
    ∀ row ∈ decRows, headerWord first second &&& row.mask = row.pattern ↔
      row = headerRow (decodeOpcode (opcodeOf first) f)

/-- A frame's bytes are header, extended length, key, payload, with the minimal length class of the payload, the mask bit
iff there is a key, and the payload masked iff there is a key (30_encoding.md R90, R92; 41_length_codec.md R141). -/
def Obligations.EncodedFrameHasTheSixFormats : Prop :=
  ∀ (first : Byte) (key : Option Key) (p : Bytes), p.length < 2 ^ 64 →
    ∃ second : Byte, maskedOf second = key.isSome ∧
      ((p.length < 126 ∧ (len7Of second).toNat = p.length ∧
          frameBytes first key p = first :: second :: (key.elim [] keyBytes ++ maskOpt p key)) ∨
       (126 ≤ p.length ∧ p.length ≤ 65535 ∧ len7Of second = 126 ∧ ∃ e0 e1 : Byte, e0.toNat * 256 + e1.toNat = p.length ∧
          frameBytes first key p = first :: second :: e0 :: e1 :: (key.elim [] keyBytes ++ maskOpt p key)) ∨
       (65535 < p.length ∧ len7Of second = 127 ∧ ∃ e : Bytes, e.length = 8 ∧ fromBe e = p.length ∧
          frameBytes first key p = first :: second :: (e ++ (key.elim [] keyBytes ++ maskOpt p key))))

/-! ### XM and LC -/

/-- `mask(data, key)`: same length, and `out[i] = data[i] XOR key[i mod 4]` (40_masking.md R130). -/
def Obligations.MaskXorsByteByByte : Prop :=
  ∀ (data : Bytes) (k : Key), (mask data k).length = data.length ∧
    ∀ i : Nat, (mask data k)[i]? = data[i]?.map fun b => b ^^^ ([k.b0, k.b1, k.b2, k.b3].getD (i % 4) 0)

/-- The involution law and the split law (40_masking.md R132). -/
def Obligations.UnmaskInvertsMaskAndMaskSplits : Prop :=
  ∀ (a b : Bytes) (k : Key), unmask (mask a k) k = a
    ∧ mask (a ++ b) k = mask a k ++ mask b (rotKey k (a.length % 4))

/-- XM.LOADKEY, XM.XORBYTE, and its refusal without a key (40_masking.md R133, R134, D26; U6). -/
def Obligations.StreamingMaskOperations : Prop :=
  ∀ (s : State) (k : Key) (b : Byte),
    runOp (.xmLoadKey k) s = .next { s with xm := { key := some k, idx := 0 } }
    ∧ (s.xm.key = some k → runOp (.xmXorByte b) s =
        .next { s with xm := { key := some k, idx := BitVec.ofNat 2 ((s.xm.idx.toNat + 1) % 4) },
                       outputs := s.outputs ++ [.xorByte (b ^^^ ([k.b0, k.b1, k.b2, k.b3].getD s.xm.idx.toNat 0))] })
    ∧ (s.xm.key = none → runOp (.xmXorByte b) s = .refused .noXmKey)

/-- The streaming engine returns the bytes of `mask(data, key)` in order, for every data and key (40_masking.md section 2,
the equivalence of the two forms). -/
def Obligations.StreamingMaskEqualsMask : Prop :=
  ∀ (s : State) (k : Key) (data : Bytes),
    Host.Core.run core (data.length + 1) { s with pending := .xmLoadKey k :: data.map .xmXorByte } =
      .next { s with pending := [], xm := { key := some k, idx := BitVec.ofNat 2 data.length },
                     outputs := s.outputs ++ (mask data k).map .xorByte }

/-- The three length classes (41_length_codec.md R140). -/
def Obligations.LengthClassesPartition : Prop :=
  ∀ len : BitVec 64,
    (len.toNat < 126 → (lenEncode len).len7.toNat = len.toNat ∧ (lenEncode len).ext = [])
    ∧ (126 ≤ len.toNat → len.toNat ≤ 65535 →
        (lenEncode len).len7 = 126 ∧ (lenEncode len).ext.length = 2 ∧ fromBe (lenEncode len).ext = len.toNat)
    ∧ (65535 < len.toNat →
        (lenEncode len).len7 = 127 ∧ (lenEncode len).ext.length = 8 ∧ fromBe (lenEncode len).ext = len.toNat)

/-- Length decoding inverts length encoding, and accepts nothing else: the encoding of each length is unique
(41_length_codec.md section 4, round trip). -/
def Obligations.LengthCodecRoundTrip : Prop :=
  (∀ len : BitVec 64, (lenEncode len).ext.length = extSize (lenEncode len).len7
      ∧ lenDecode (lenEncode len).len7 (lenEncode len).ext = .ok len)
  ∧ ∀ (c : BitVec 7) (e : Bytes) (len : BitVec 64), e.length = extSize c → lenDecode c e = .ok len →
      lenEncode len = ⟨c, e⟩

/-! ### The steps of a run -/

/-- A step whose pending operation feeds the bytes of exactly one frame runs the frame's instruction, in the state where its
scratch fields are loaded and the stream position is past it, and clears the scratch fields unless it raised an error
(43_decoder_phases.md section 2; log 1, log 9). -/
def Obligations.StepRunsTheReceivedFrame : Prop :=
  ∀ (s : State) (first second : Byte) (bytes : Bytes) (ops : List HostOp) (i : Instr) (f : Frame),
    AtFrameStart s.dec → s.pending = .decFeed (first :: second :: bytes) :: ops →
    decodeFrame (first :: second :: bytes) = .ok i [] → frameOf i = some f →
    allowsFrame s.cfg f.payload.length = true →
    step s = andThen (exec i (fetched first second f (bytes.length + 2) { s with pending := ops }))
      fun t => .next (if t.dec.dead then t else clearScratch t)

/-- A step whose pending operation is an ENC row runs it; a DEC row is refused there; with nothing pending the block holds
its state (42_encoder.md R150; log 1, log 5). -/
def Obligations.StepRunsTheEmittedFrame : Prop :=
  ∀ (s : State) (i : Instr) (ops : List HostOp),
    (s.pending = .encFrame i :: ops → i.isEncoder = true → step s = exec i { s with pending := ops })
    ∧ (s.pending = .encFrame i :: ops → i.isEncoder = false → step s = .refused .notAnEncoderRow)
    ∧ (s.pending = [] → step s = .next s)

/-- FEED from a frame boundary executes the first frame that the one-shot decoder reads and then is FEED of the rest: the
incremental decoder is the iteration of the one-shot decoder (43_decoder_phases.md sections 2 and 3). -/
def Obligations.FeedIteratesTheFrameDecoder : Prop :=
  ∀ (s : State) (first second : Byte) (bytes rest : Bytes) (i : Instr) (f : Frame),
    AtFrameStart s.dec → decodeFrame (first :: second :: bytes) = .ok i rest → frameOf i = some f →
    allowsFrame s.cfg f.payload.length = true →
    feed (first :: second :: bytes) s =
      andThen (exec i (fetched first second f (bytes.length + 2 - rest.length) s))
        fun t => feed rest (if t.dec.dead then t else clearScratch t)

/-- Chunking invariance, from every state: two FEEDs are one FEED of the two chunks joined, in the events returned and in
the whole state after (20_memory.md section 2). -/
def Obligations.ChunkingDoesNotMatter : Prop :=
  ∀ (s : State) (a b : Bytes) (ops : List HostOp),
    Host.Core.run core 2 { s with pending := .decFeed a :: .decFeed b :: ops } =
      Host.Core.run core 1 { s with pending := .decFeed (a ++ b) :: ops }

/-- Feeding a chunk is feeding its bytes one at a time (43_decoder_phases.md section 3, byte-serial equivalence). -/
def Obligations.ByteSerialFeedIsTheSame : Prop :=
  ∀ (s : State) (c : Bytes) (ops : List HostOp), c ≠ [] →
    Host.Core.run core c.length { s with pending := c.map (fun b => .decFeed [b]) ++ ops } =
      Host.Core.run core 1 { s with pending := .decFeed c :: ops }

/-- An empty chunk between operations changes nothing (43_decoder_phases.md section 3, D19). -/
def Obligations.EmptyFeedChangesNothing : Prop :=
  ∀ s : State, Inv s → runOp (.decFeed []) s = .next s

/-- Each phase's unit is all-or-nothing: with fewer bytes FEED only buffers, with enough the phase consumes exactly the
unit (20_memory.md R66). -/
def Obligations.PhaseUnitsAreAllOrNothing : Prop :=
  (∀ (s : State) (chunk : Bytes) (n : Nat), s.dec.dead = false → phaseUnit s.dec = some n →
      s.dec.inbuf.length + chunk.length < n →
      feed chunk s = .next { s with dec := { s.dec with inbuf := s.dec.inbuf ++ chunk } })
  ∧ ∀ (s t : State) (n : Nat), s.dec.dead = false → phaseUnit s.dec = some n → n ≤ s.dec.inbuf.length →
      phaseStep s = .next t →
      t.dec.offset = s.dec.offset + n ∧ (t.dec.dead = false → t.dec.inbuf = s.dec.inbuf.drop n)

/-- No byte is lost or read twice: while the decoder is live, what a FEED adds is consumed, counted by `dec.offset`, or
still buffered; and the position never goes back (10_state.md section 1, 20_memory.md section 3; decision D5). -/
def Obligations.EveryByteIsConsumedOrBuffered : Prop :=
  ∀ (s t : State) (chunk : Bytes), s.dec.dead = false → runOp (.decFeed chunk) s = .next t →
    s.dec.offset ≤ t.dec.offset ∧
    (t.dec.dead = false →
      t.dec.offset + t.dec.inbuf.length = s.dec.offset + s.dec.inbuf.length + chunk.length
        ∧ t.dec.inbuf = (s.dec.inbuf ++ chunk).drop (t.dec.offset - s.dec.offset))

/-- Payload-length step: it is enabled on a live decoder with the extended bytes buffered; they are consumed and the length
resolved (43_decoder_phases.md section 2), or `NonMinimalLengthEncoding` is raised after they are consumed: dead, code 2,
input discarded, range from frame_start (60_exceptions.md sections 1 and 2; decisions D3, D4, D5). -/
def Obligations.PayloadLengthStepResolvesOrRaises : Prop :=
  ∀ (s : State) (second : Byte) (n : Nat), s.dec.phase = .payloadLength → s.dec.secondByte = some second →
    n = extSize (len7Of second) →
    (enabled s.dec = true ↔ s.dec.dead = false ∧ n ≤ s.dec.inbuf.length)
    ∧ (∀ len : BitVec 64, lenDecode (len7Of second) (s.dec.inbuf.take n) = .ok len → allowsFrame s.cfg len.toNat = true →
      phaseStep s = .next
        { s with dec := { s.dec with
            inbuf := s.dec.inbuf.drop n, offset := s.dec.offset + n, payloadLength := some len,
            phase := if maskedOf second = true then .mask else .payload } })
    ∧ (lenDecode (len7Of second) (s.dec.inbuf.take n) = .nonMinimal →
      phaseStep s = .next
        { s with
          dec := { s.dec with inbuf := [], offset := s.dec.offset + n, dead := true, errCode := 2 },
          outputs := s.outputs
            ++ [.event (.error .nonMinimalLengthEncoding s.dec.frameStart (s.dec.offset + n))] })

/-- Mask step and payload step, each enabled on a live decoder with its unit buffered: four key bytes in wire order; then
`payload_length` bytes, unmasked from index 0 iff the mask bit is set (43_decoder_phases.md R183, R184). -/
def Obligations.MaskAndPayloadStepsConsumeTheirUnit : Prop :=
  (∀ s : State, s.dec.phase = .mask → (enabled s.dec = true ↔ s.dec.dead = false ∧ 4 ≤ s.dec.inbuf.length))
  ∧ (∀ (s : State) (len : BitVec 64), s.dec.phase = .payload → s.dec.payloadLength = some len →
      (enabled s.dec = true ↔ s.dec.dead = false ∧ len.toNat ≤ s.dec.inbuf.length))
  ∧ (∀ (s : State) (a b c d : Byte) (rest : Bytes), s.dec.phase = .mask → s.dec.inbuf = a :: b :: c :: d :: rest →
    phaseStep s = .next
      { s with dec := { s.dec with
          inbuf := rest, offset := s.dec.offset + 4, maskKey := some ⟨a, b, c, d⟩, phase := .payload } })
  ∧ ∀ (s : State) (second : Byte) (len : BitVec 64) (p rest : Bytes), s.dec.phase = .payload →
      s.dec.secondByte = some second → s.dec.payloadLength = some len → s.dec.inbuf = p ++ rest → p.length = len.toNat →
      (maskedOf second = false →
        phaseStep s = .next
          { s with dec := { s.dec with
              inbuf := rest, offset := s.dec.offset + len.toNat, payload := some p, phase := .complete } })
      ∧ ∀ k : Key, maskedOf second = true → s.dec.maskKey = some k →
        phaseStep s = .next
          { s with dec := { s.dec with
              inbuf := rest, offset := s.dec.offset + len.toNat, payload := some (unmask p k), phase := .complete } }

/-- A non-minimal extended length is an error as soon as it is read: only header and length bytes are consumed
(41_length_codec.md section 3); the decoder is dead with code 2, the rest of the chunk is discarded, and the range is 4 or
10 bytes (60_exceptions.md sections 1 and 2; decisions D3, D4, D5). -/
def Obligations.NonMinimalLengthKillsAtTheLengthField : Prop :=
  ∀ (s : State) (first second : Byte) (e rest : Bytes), AtFrameStart s.dec →
    ((len7Of second = 126 ∧ e.length = 2 ∧ fromBe e ≤ 125) ∨ (len7Of second = 127 ∧ e.length = 8 ∧ fromBe e ≤ 65535)) →
    runOp (.decFeed (first :: second :: (e ++ rest))) s =
      .next { s with
        dec := { s.dec with
          phase := .payloadLength, firstByte := some first, secondByte := some second, dead := true, errCode := 2,
          frameStart := s.dec.offset, offset := s.dec.offset + 2 + e.length },
        outputs := s.outputs
          ++ [.event (.error .nonMinimalLengthEncoding s.dec.offset (s.dec.offset + 2 + e.length))] }

/-- With MAX_FRAME_PAYLOAD configured, a FEED from a frame boundary of a frame that announces more has no step
(93_implementation_defined.md U2, D14; log 3). -/
def Obligations.FrameAboveConfiguredLimitIsRefused : Prop :=
  ∀ (s : State) (first second : Byte) (e rest : Bytes) (len : BitVec 64) (m : Nat), AtFrameStart s.dec →
    e.length = extSize (len7Of second) → lenDecode (len7Of second) e = .ok len →
    s.cfg.maxFramePayload = some m → m < len.toNat →
    runOp (.decFeed (first :: second :: (e ++ rest))) s = .refused .frameLimit

/-! ### The DEC rows -/

/-- CONT: append, keep the type (decision D6); with FIN deliver with the type kept, an untyped message as NONE and
unvalidated (D6), a text message after validation, or raise `InvalidUtf8Text` (44_frame_completion.md sections 2 and 4;
UTF-8: GK3, log 11; the error: 60_exceptions.md section 2, D3, D4, D5). -/
def Obligations.ContRowAppendsAndDelivers : Prop :=
  ∀ (f : Frame) (s : State), s.dec.dead = false →
    allowsMessage s.cfg (s.dec.acc.getD [] ++ f.payload).length = true →
    exec (.cont f) s = .next
      (if f.fin = false then { s with dec := { s.dec with acc := some (s.dec.acc.getD [] ++ f.payload) } }
       else if s.dec.msgType = .text ∧ utf8Wf (s.dec.acc.getD [] ++ f.payload) = false then
         { s with
           dec := { s.dec with acc := some (s.dec.acc.getD [] ++ f.payload), dead := true, errCode := 3, inbuf := [] },
           outputs := s.outputs ++ [.event (.error .invalidUtf8Text s.dec.frameStart s.dec.offset)] }
       else
         { s with
           dec := { s.dec with acc := none, msgType := .none },
           outputs := s.outputs ++ [.event (.message s.dec.msgType (s.dec.acc.getD [] ++ f.payload))] })

/-- TEXT: append, the message becomes text (decision D6); with FIN validate the whole message and deliver, or raise
`InvalidUtf8Text` (44_frame_completion.md section 2; UTF-8: GK3, log 11; the error: 60_exceptions.md section 2,
D3, D4, D5). -/
def Obligations.TextRowValidatesAndDelivers : Prop :=
  ∀ (f : Frame) (s : State), s.dec.dead = false →
    allowsMessage s.cfg (s.dec.acc.getD [] ++ f.payload).length = true →
    exec (.text f) s = .next
      (if f.fin = false then
         { s with dec := { s.dec with acc := some (s.dec.acc.getD [] ++ f.payload), msgType := .text } }
       else if utf8Wf (s.dec.acc.getD [] ++ f.payload) = false then
         { s with
           dec := { s.dec with
             acc := some (s.dec.acc.getD [] ++ f.payload), msgType := .text, dead := true, errCode := 3, inbuf := [] },
           outputs := s.outputs ++ [.event (.error .invalidUtf8Text s.dec.frameStart s.dec.offset)] }
       else
         { s with
           dec := { s.dec with acc := none, msgType := .none },
           outputs := s.outputs ++ [.event (.message .text (s.dec.acc.getD [] ++ f.payload))] })

/-- BINARY: append, the message becomes binary (decision D6); with FIN deliver it unvalidated (44_frame_completion.md
section 2). -/
def Obligations.BinaryRowDeliversUnvalidated : Prop :=
  ∀ (f : Frame) (s : State), s.dec.dead = false →
    allowsMessage s.cfg (s.dec.acc.getD [] ++ f.payload).length = true →
    exec (.binary f) s = .next
      (if f.fin = false then
         { s with dec := { s.dec with acc := some (s.dec.acc.getD [] ++ f.payload), msgType := .binary } }
       else
         { s with
           dec := { s.dec with acc := none, msgType := .none },
           outputs := s.outputs ++ [.event (.message .binary (s.dec.acc.getD [] ++ f.payload))] })

/-- CONT, TEXT and BINARY beyond a configured MAX_MESSAGE_BYTES have no step (93_implementation_defined.md U2, D14;
log 3). -/
def Obligations.MessageAboveConfiguredLimitIsRefused : Prop :=
  ∀ (f : Frame) (s : State) (m : Nat), s.dec.dead = false → s.cfg.maxMessageBytes = some m →
    m < (s.dec.acc.getD []).length + f.payload.length →
    exec (.cont f) s = .refused .messageLimit ∧ exec (.text f) s = .refused .messageLimit
      ∧ exec (.binary f) s = .refused .messageLimit

/-- PING and PONG: with FIN the event with the whole payload, whatever its length (decision D9), and nothing else (D23);
without FIN `FragmentedControlFrame`: dead, code 4, input discarded, range `[frame_start, offset)` (44_frame_completion.md
section 3, 60_exceptions.md sections 1 and 2; D3, D4, D5). -/
def Obligations.PingAndPongRowsDeliverAtOnce : Prop :=
  ∀ (f : Frame) (s : State), s.dec.dead = false →
    exec (.ping f) s = .next
      (if f.fin then { s with outputs := s.outputs ++ [.event (.ping f.payload)] }
       else { s with
         dec := { s.dec with dead := true, errCode := 4, inbuf := [] },
         outputs := s.outputs ++ [.event (.error .fragmentedControlFrame s.dec.frameStart s.dec.offset)] })
    ∧ exec (.pong f) s = .next
      (if f.fin then { s with outputs := s.outputs ++ [.event (.pong f.payload)] }
       else { s with
         dec := { s.dec with dead := true, errCode := 4, inbuf := [] },
         outputs := s.outputs ++ [.event (.error .fragmentedControlFrame s.dec.frameStart s.dec.offset)] })

/-- CLOSE with FIN: status symbol of the first two bytes read big-endian and the bytes after them, unvalidated (decision
D11); without two bytes neither (D10); nothing else changes (D23; 44_frame_completion.md section 3). -/
def Obligations.CloseRowReportsStatusAndReason : Prop :=
  ∀ (f : Frame) (s : State), s.dec.dead = false → f.fin = true →
    (∀ (a b : Byte) (reason : Bytes), f.payload = a :: b :: reason →
      exec (.close f) s = .next
        { s with outputs := s.outputs ++ [.event (.close (statusSym (a.toNat * 256 + b.toNat)) reason)] })
    ∧ (f.payload.length < 2 →
      exec (.close f) s = .next { s with outputs := s.outputs ++ [.event (.close .noStatus [])] })

/-- A control frame without FIN raises `FragmentedControlFrame` and delivers nothing (44_frame_completion.md section 4):
dead, code 4, input discarded, range `[frame_start, offset)` (60_exceptions.md sections 1 and 2; decisions D3, D4, D5). -/
def Obligations.FragmentedControlFrameKills : Prop :=
  ∀ (f : Frame) (s : State) (i : Instr), i = .close f ∨ i = .ping f ∨ i = .pong f → s.dec.dead = false → f.fin = false →
    exec i s = .next
      { s with
        dec := { s.dec with dead := true, errCode := 4, inbuf := [] },
        outputs := s.outputs ++ [.event (.error .fragmentedControlFrame s.dec.frameStart s.dec.offset)] }

/-- A reserved opcode raises `UnknownOpcode`, whatever the frame's fields, before any side effect; the error comes after the
whole frame has been consumed and covers it (44_frame_completion.md section 1); the decoder is dead with code 1 and the rest
of the chunk is discarded (60_exceptions.md sections 1 and 2; decisions D3, D4, D5). -/
def Obligations.ReservedOpcodeKills : Prop :=
  ∀ (f : Frame) (lo : BitVec 2) (s : State) (i : Instr),
    i = .rsvd3 f ∨ i = .rsvd4to7 lo f ∨ i = .rsvd11 f ∨ i = .rsvd12to15 lo f →
    (s.dec.dead = false →
      exec i s = .next
        { s with
          dec := { s.dec with dead := true, errCode := 1, inbuf := [] },
          outputs := s.outputs ++ [.event (.error .unknownOpcode s.dec.frameStart s.dec.offset)] })
    ∧ (∀ rest : Bytes, AtFrameStart s.dec → i.wellFormed = true → allowsFrame s.cfg f.payload.length = true →
      ∃ t : State, runOp (.decFeed (encode i ++ rest)) s = .next t
        ∧ t.outputs = s.outputs ++ [.event (.error .unknownOpcode s.dec.offset (s.dec.offset + (encode i).length))]
        ∧ t.dec.offset = s.dec.offset + (encode i).length ∧ t.dec.dead = true ∧ t.dec.errCode = 1
        ∧ t.dec.acc = s.dec.acc ∧ t.dec.msgType = s.dec.msgType)

/-- The dead decoder: FEED discards its chunk and no frame has an effect (60_exceptions.md section 2, D3; log 8). -/
def Obligations.DeadDecoderDiscardsEverything : Prop :=
  ∀ (s : State), s.dec.dead = true →
    (∀ chunk : Bytes, runOp (.decFeed chunk) s = .next s) ∧ ∀ i : Instr, i.isEncoder = false → exec i s = .next s

/-- The frame of every DEC row: ENC, XM, the configuration, the pending operations, the scratch fields and the stream
position are unchanged; `dec.inbuf` is emptied when the decoder dies and unchanged otherwise, `dec.err_code` changes only
when it dies, a dead decoder stays dead; and at most one event is emitted: "A completed frame emits at most one event"
(44_frame_completion.md sections 1 and 4, 60_exceptions.md section 2; decision D3). -/
def Obligations.ReceivedRowsChangeOnlyTheMessage : Prop :=
  ∀ (i : Instr) (s t : State), i.isEncoder = false → exec i s = .next t →
    t.enc = s.enc ∧ t.xm = s.xm ∧ t.cfg = s.cfg ∧ t.pending = s.pending
    ∧ t.dec = { s.dec with
        acc := t.dec.acc, msgType := t.dec.msgType, dead := t.dec.dead, errCode := t.dec.errCode, inbuf := t.dec.inbuf }
    ∧ (t.dec.dead = s.dec.dead → t.dec.errCode = s.dec.errCode ∧ t.dec.inbuf = s.dec.inbuf)
    ∧ (s.dec.dead = false → t.dec.dead = true → t.dec.inbuf = []) ∧ (s.dec.dead = true → t.dec.dead = true)
    ∧ ∃ os : List Output, os.length ≤ 1 ∧ t.outputs = s.outputs ++ os

/-- Reassembly, in both fragment orders: any number of continuations without FIN and control frames with FIN, mixed freely,
ended by a TEXT or BINARY frame with FIN; the same ended by a CONT frame with FIN, where the message keeps the type it has;
and the same begun by a TEXT or BINARY frame without FIN and ended by CONT with FIN. The control frames' events come out in
order, and then one message: what was accumulated and all data payloads, joined; of a text that is not UTF-8 the error
instead. Control frames neither read nor write the accumulation (44_frame_completion.md sections 2, 4 and 5; the message's
type: decision D6; UTF-8: GK3, log 11; the error: 60_exceptions.md section 2, D3, D4, D5). -/
def Obligations.FragmentsReassembleAcrossControlFrames : Prop :=
  ∀ (pieces frames : List Instr) (first last : Frame) (s : State) (t : MsgType) (data : Bytes),
    s.dec.dead = false → s.cfg.maxMessageBytes = none → first.fin = false → last.fin = true → (∀ i ∈ pieces, IsPiece i) →
    (data = s.dec.acc.getD [] ++ (pieces.filterMap pieceData).flatten ++ last.payload
        ∧ ((frames = pieces ++ [.text last] ∧ t = .text) ∨ (frames = pieces ++ [.binary last] ∧ t = .binary)
          ∨ (frames = pieces ++ [.cont last] ∧ t = s.dec.msgType)))
      ∨ (data = s.dec.acc.getD [] ++ first.payload ++ (pieces.filterMap pieceData).flatten ++ last.payload
        ∧ ((frames = .text first :: (pieces ++ [.cont last]) ∧ t = .text)
          ∨ (frames = .binary first :: (pieces ++ [.cont last]) ∧ t = .binary))) →
    ((t = .text → utf8Wf data = true) →
      execAll frames s = .next
        { s with
          dec := { s.dec with acc := none, msgType := .none },
          outputs := s.outputs ++ (pieces.filterMap pieceEvent).map .event ++ [.event (.message t data)] })
    ∧ (t = .text → utf8Wf data = false →
      execAll frames s = .next
        { s with
          dec := { s.dec with acc := some data, msgType := .text, dead := true, errCode := 3, inbuf := [] },
          outputs := s.outputs ++ (pieces.filterMap pieceEvent).map .event
            ++ [.event (.error .invalidUtf8Text s.dec.frameStart s.dec.offset)] })

/-! ### The ENC rows and operations -/

/-- The five ENC rows other than CLOSE: the message register holds the type, the payload under the key and the key, and the
bytes returned are the encoding of the row; DEC and XM are untouched (42_encoder.md sections 2 to 4; decisions D11, D12,
D22; that a row runs as build, mask, emit is the model's choice, log 5). -/
def Obligations.EncoderRowsEmitTheirEncoding : Prop :=
  ∀ (k : Option Key) (p : Bytes) (s : State) (i : Instr) (t : FrameType),
    (i = .encCont k p ∧ t = .continuation) ∨ (i = .encText k p ∧ t = .text) ∨ (i = .encBinary k p ∧ t = .binary)
      ∨ (i = .encPing k p ∧ t = .ping) ∨ (i = .encPong k p ∧ t = .pong) →
    p.length < 2 ^ 64 →
    exec i s = .next
      { s with
        enc := { mValid := true, mType := t, mPayload := maskOpt p k, mMasked := k.isSome, mKey := k },
        outputs := s.outputs ++ [.frame (encode i)] }

/-- ENC.CLOSE: with a status, of any value (decision D24), the payload is the status big-endian and the reason, the payload
operand unused (D13); without one it is the payload operand (42_encoder.md sections 2 to 4; that the row runs as build,
mask, emit is the model's choice, log 5). -/
def Obligations.EncoderCloseRowPacksStatus : Prop :=
  ∀ (k : Option Key) (p : Bytes) (s : State),
    (∀ (c : BitVec 16) (reason : Option Bytes), (reason.getD []).length + 2 < 2 ^ 64 →
      exec (.encClose k p (some c) reason) s = .next
        { s with
          enc := { mValid := true, mType := .close,
                   mPayload := maskOpt (BitVec.ofNat 8 (c.toNat / 256) :: BitVec.ofNat 8 c.toNat :: reason.getD []) k,
                   mMasked := k.isSome, mKey := k },
          outputs := s.outputs ++ [.frame (encode (.encClose k p (some c) reason))] })
    ∧ (p.length < 2 ^ 64 →
      exec (.encClose k p none none) s = .next
        { s with
          enc := { mValid := true, mType := .close, mPayload := maskOpt p k, mMasked := k.isSome, mKey := k },
          outputs := s.outputs ++ [.frame (encode (.encClose k p none none))] })

/-- The first byte of an emitted frame is a function of its type alone (42_encoder.md section 4; type continuation: decision
D22). -/
def Obligations.EmittedFirstBytes : Prop :=
  ∀ (k : Option Key) (p : Bytes) (st : Option (BitVec 16)) (r : Option Bytes),
    (encode (.encCont k p)).head? = some 0x00 ∧ (encode (.encText k p)).head? = some 0x81
      ∧ (encode (.encBinary k p)).head? = some 0x82 ∧ (encode (.encClose k p st r)).head? = some 0x88
      ∧ (encode (.encPing k p)).head? = some 0x89 ∧ (encode (.encPong k p)).head? = some 0x8a

/-- A reason without a status, an empty one too: the violation is returned, no state is written and no byte produced by the
operation (42_encoder.md section 2, 60_exceptions.md section 4; decision D13). That the row ENC.CLOSE ends there, before its
mask and emit, is the model's choice: log 5, DESIGN CHOICE. -/
def Obligations.ReasonWithoutStatusIsRejected : Prop :=
  ∀ (k : Option Key) (p reason : Bytes) (s : State),
    exec (.encClose k p none (some reason)) s = .next { s with outputs := s.outputs ++ [.contractViolation] }
    ∧ runOp (.encBuildClose p none (some reason)) s = .next { s with outputs := s.outputs ++ [.contractViolation] }

/-- A payload of 2^64 bytes or more, or a close reason that makes it so, has no step in any ENC row
(93_implementation_defined.md U17). -/
def Obligations.OversizedPayloadIsRefused : Prop :=
  ∀ (k : Option Key) (p : Bytes) (s : State),
    (2 ^ 64 ≤ p.length →
      ∀ i ∈ [Instr.encCont k p, .encText k p, .encBinary k p, .encClose k p none none, .encPing k p, .encPong k p],
        exec i s = .refused .payloadTooLong)
    ∧ ∀ (c : BitVec 16) (reason : Bytes), 2 ^ 64 ≤ reason.length + 2 →
        exec (.encClose k p (some c) (some reason)) s = .refused .payloadTooLong

/-- Each build writes all five fields of the message register and nothing else (42_encoder.md section 2; type continuation:
decision D22; a close of any status, D24, whose payload operand is then not used, D13). -/
def Obligations.BuildsWriteTheWholeRegister : Prop :=
  ∀ (p : Bytes) (s : State), p.length < 2 ^ 64 →
    runOp (.encBuildCont p) s = .next { s with enc := ⟨true, .continuation, p, false, none⟩ }
    ∧ runOp (.encBuildText p) s = .next { s with enc := ⟨true, .text, p, false, none⟩ }
    ∧ runOp (.encBuildBinary p) s = .next { s with enc := ⟨true, .binary, p, false, none⟩ }
    ∧ runOp (.encBuildPing p) s = .next { s with enc := ⟨true, .ping, p, false, none⟩ }
    ∧ runOp (.encBuildPong p) s = .next { s with enc := ⟨true, .pong, p, false, none⟩ }
    ∧ runOp (.encBuildClose p none none) s = .next { s with enc := ⟨true, .close, p, false, none⟩ }
    ∧ ∀ (c : BitVec 16) (reason : Option Bytes), (reason.getD []).length + 2 < 2 ^ 64 →
        runOp (.encBuildClose p (some c) reason) s = .next
          { s with enc := ⟨true, .close, BitVec.ofNat 8 (c.toNat / 256) :: BitVec.ofNat 8 c.toNat :: reason.getD [],
                           false, none⟩ }

/-- ENC.MASK masks a built message once: defined on a valid unmasked register, refused without a message and refused on a
masked one (42_encoder.md section 3; U1, U13). -/
def Obligations.MaskHappensExactlyOnce : Prop :=
  ∀ (k : Key) (s : State),
    (s.enc.mValid = true → s.enc.mMasked = false →
      runOp (.encMask k) s = .next
        { s with enc := { s.enc with mKey := some k, mMasked := true, mPayload := mask s.enc.mPayload k } })
    ∧ (s.enc.mValid = false → runOp (.encMask k) s = .refused .noMessage)
    ∧ (s.enc.mValid = true → s.enc.mMasked = true → runOp (.encMask k) s = .refused .alreadyMasked)

/-- ENC.EMIT returns the bytes of the frame the register holds, writes no register, and returns the same again; without a
message it is refused (42_encoder.md section 4, D21; U13). -/
def Obligations.EmitWritesNothingAndRepeats : Prop :=
  ∀ s : State, EncInv s.enc →
    (s.enc.mValid = true →
      ∃ bytes : Bytes, frameBytes (encFirstByte s.enc.mType) s.enc.mKey (maskOpt s.enc.mPayload s.enc.mKey) = bytes
        ∧ runOp .encEmit s = .next { s with outputs := s.outputs ++ [.frame bytes] }
        ∧ Host.Core.run core 2 { s with pending := [.encEmit, .encEmit] }
            = .next { s with pending := [], outputs := s.outputs ++ [.frame bytes, .frame bytes] })
    ∧ (s.enc.mValid = false → runOp .encEmit s = .refused .noMessage)

/-- The round trip of BINARY, TEXT, PING and PONG: what the ENC row emits, fed to a decoder at a frame boundary with nothing
accumulated, comes back as the same payload, delivered once; a text that is not UTF-8 is an error over the whole frame
instead (42_encoder.md section 6; that ENC does not check: decision D11; UTF-8: GK3, log 11; the error: D5; the row as one
transaction: log 5). -/
def Obligations.EncodedMessageRoundTrips : Prop :=
  ∀ (k : Option Key) (p : Bytes) (s : State), AtFrameStart s.dec → s.dec.acc = none → s.cfg = ⟨none, none⟩ →
    p.length < 2 ^ 64 →
    ∀ (i : Instr) (ev : Event),
      (i = .encBinary k p ∧ ev = .message .binary p)
        ∨ (i = .encText k p ∧ utf8Wf p = true ∧ ev = .message .text p)
        ∨ (i = .encText k p ∧ utf8Wf p = false
            ∧ ev = .error .invalidUtf8Text s.dec.offset (s.dec.offset + (encode i).length))
        ∨ (i = .encPing k p ∧ ev = .ping p) ∨ (i = .encPong k p ∧ ev = .pong p) →
      ∃ t u : State, exec i s = .next t ∧ t.dec = s.dec ∧ t.outputs = s.outputs ++ [.frame (encode i)]
        ∧ runOp (.decFeed (encode i)) t = .next u ∧ u.outputs = t.outputs ++ [.event ev]
        ∧ (isErrorOutput (.event ev) = false → DecodedAll u ∧ u.dec.acc = none)

/-- A continuation ENC emits (decision D22) is accumulated by the decoder without an event or an error (42_encoder.md
section 6; the row as one transaction: log 5). -/
def Obligations.EncodedContinuationAccumulates : Prop :=
  ∀ (k : Option Key) (p : Bytes) (s : State), AtFrameStart s.dec → s.cfg = ⟨none, none⟩ → p.length < 2 ^ 64 →
    ∃ t u : State, exec (.encCont k p) s = .next t ∧ t.dec = s.dec
      ∧ t.outputs = s.outputs ++ [.frame (encode (.encCont k p))]
      ∧ runOp (.decFeed (encode (.encCont k p))) t = .next u ∧ u.outputs = t.outputs ∧ DecodedAll u
      ∧ u.dec.acc = some (s.dec.acc.getD [] ++ p) ∧ u.dec.msgType = s.dec.msgType

/-- The close round trip: status and reason come back as symbol and reason (the payload operand unused, decision D13; any
status, D24), a payload of two bytes or more as what it says, an empty one as neither, and one of a single byte as neither
too (D10) (42_encoder.md sections 2 and 6, 44_frame_completion.md section 3; the row as one transaction: log 5). -/
def Obligations.EncodedCloseRoundTrips : Prop :=
  ∀ (k : Option Key) (p : Bytes) (c : BitVec 16) (reason : Option Bytes) (s : State), AtFrameStart s.dec →
    s.cfg = ⟨none, none⟩ → (reason.getD []).length + 2 < 2 ^ 64 → p.length < 2 ^ 64 →
    ∀ (i : Instr) (ev : Event),
      (i = .encClose k p (some c) reason ∧ ev = .close (statusSym c.toNat) (reason.getD []))
        ∨ (i = .encClose k p none none ∧ p.length < 2 ∧ ev = .close .noStatus [])
        ∨ (i = .encClose k p none none ∧ ∃ (a b : Byte) (r : Bytes), p = a :: b :: r
            ∧ ev = .close (statusSym (a.toNat * 256 + b.toNat)) r) →
      ∃ t u : State, exec i s = .next t ∧ t.dec = s.dec ∧ t.outputs = s.outputs ++ [.frame (encode i)]
        ∧ runOp (.decFeed (encode i)) t = .next u ∧ u.outputs = t.outputs ++ [.event ev]
        ∧ DecodedAll u ∧ u.dec.acc = s.dec.acc ∧ u.dec.msgType = s.dec.msgType

/-! ### Tables, STATUS, reset and whole-machine rules -/

/-- Well-formed UTF-8: the table holds the nine rows of 44_frame_completion.md section 4, written out, and the check accepts
exactly the concatenations of groups of its rows (GK3; log 11, PRESUMED). -/
def Obligations.Utf8CheckIsTheTable : Prop :=
  utf8Rows =
    [[(0x00, 0x7f)],
     [(0xc2, 0xdf), (0x80, 0xbf)],
     [(0xe0, 0xe0), (0xa0, 0xbf), (0x80, 0xbf)],
     [(0xe1, 0xec), (0x80, 0xbf), (0x80, 0xbf)],
     [(0xed, 0xed), (0x80, 0x9f), (0x80, 0xbf)],
     [(0xee, 0xef), (0x80, 0xbf), (0x80, 0xbf)],
     [(0xf0, 0xf0), (0x90, 0xbf), (0x80, 0xbf), (0x80, 0xbf)],
     [(0xf1, 0xf3), (0x80, 0xbf), (0x80, 0xbf), (0x80, 0xbf)],
     [(0xf4, 0xf4), (0x80, 0x8f), (0x80, 0xbf), (0x80, 0xbf)]]
  ∧ ∀ s : Bytes, utf8Wf s = true ↔ Utf8Groups s

/-- The status table: nine codes with their symbols, and no symbol for any other (10_state.md section 6; the codes: GK2, log
11, PRESUMED; the symbols' numbers 0 to 9: decision D18). -/
def Obligations.StatusTableIsClosed : Prop :=
  symCode (statusSym 1000) = 1 ∧ symCode (statusSym 1001) = 2 ∧ symCode (statusSym 1002) = 3
  ∧ symCode (statusSym 1003) = 4 ∧ symCode (statusSym 1007) = 5 ∧ symCode (statusSym 1008) = 6
  ∧ symCode (statusSym 1009) = 7 ∧ symCode (statusSym 1010) = 8 ∧ symCode (statusSym 1011) = 9
  ∧ ∀ c : Nat, c ∉ [1000, 1001, 1002, 1003, 1007, 1008, 1009, 1010, 1011] → symCode (statusSym c) = 0

/-- The fields of the STATUS word in every state, the phase as 0 to 4 and the message type as 0 to 2, and that reading it
changes nothing (10_state.md sections 1, 2 and 4; decisions D15, D6). -/
def Obligations.StatusWordFields : Prop :=
  ∀ s : State, ∃ w : BitVec 16,
    runOp .decStatus s = .next { s with outputs := s.outputs ++ [.status w] }
    ∧ (w.extractLsb' 0 3).toNat =
        (match s.dec.phase with
          | .header => 0
          | .payloadLength => 1
          | .mask => 2
          | .payload => 3
          | .complete => 4)
    ∧ w.getLsbD 3 = s.dec.dead ∧ w.extractLsb' 4 3 = s.dec.errCode
    ∧ w.getLsbD 7 = s.dec.acc.isSome
    ∧ (w.extractLsb' 8 2).toNat =
        (match s.dec.msgType with
          | .none => 0
          | .text => 1
          | .binary => 2)
    ∧ w.extractLsb' 10 6 = 0

/-- DEC.RESET: the decoder as after power-on, from every state; ENC, XM and what was returned stay
(70_reset_and_hazards.md section 1, D16). -/
def Obligations.DecResetRestoresTheDecoder : Prop :=
  ∀ s : State, runOp .decReset s = .next { s with dec := State.reset.dec }

/-- Nothing but DEC.RESET brings a dead decoder back (10_state.md section 2, 60_exceptions.md section 2, D3). -/
def Obligations.OnlyResetLeavesTheDeadState : Prop :=
  ∀ s t : State, s.dec.dead = true → step s = .next t →
    (s.pending.head? = some .decReset ∧ t.dec = State.reset.dec) ∨ (s.pending.head? ≠ some .decReset ∧ t.dec = s.dec)

/-- Every error is reported exactly once, as the last output of the step in which the decoder dies, with the code of
`err_code` and the range `[frame_start, offset)`; a step that does not kill the decoder reports none (60_exceptions.md
sections 1 and 2; decisions D3, D4, D5). -/
def Obligations.ErrorIsReportedOnceByTheStepThatKills : Prop :=
  ∀ s t : State, step s = .next t →
    ((s.dec.dead = true ∨ t.dec.dead = false) → errorCount t.outputs = errorCount s.outputs)
    ∧ (s.dec.dead = false → t.dec.dead = true →
        errorCount t.outputs = errorCount s.outputs + 1 ∧ t.dec.inbuf = [] ∧
        ∃ e : DecError, t.outputs.getLast? = some (.event (.error e t.dec.frameStart t.dec.offset))
          ∧ t.dec.errCode = errorCode e)

/-- What was returned stays returned, in order; the configuration is constant; one pending operation is taken per step
(20_memory.md section 5, D14; log 1, log 2). -/
def Obligations.OutputsOnlyGrowInOrder : Prop :=
  ∀ s t : State, step s = .next t → s.outputs <+: t.outputs ∧ t.cfg = s.cfg ∧ t.pending = s.pending.tail

/-- The units share no mutable state: DEC operations leave ENC and XM, ENC operations leave DEC and XM, XM operations leave
DEC and ENC (00_scope.md R3, 10_state.md R40). -/
def Obligations.UnitsShareNoMutableState : Prop :=
  ∀ (op : HostOp) (s t : State), runOp op s = .next t →
    (isDecOp op = true → t.enc = s.enc ∧ t.xm = s.xm) ∧ (isEncOp op = true → t.dec = s.dec ∧ t.xm = s.xm)
    ∧ (isDecOp op = false → isEncOp op = false → t.dec = s.dec ∧ t.enc = s.enc)

/-- A DEC and an ENC operation commute: where the DEC operation and then the ENC operation complete, so do they in the other
order, and the same registers are left (20_memory.md section 5). -/
def Obligations.DecAndEncOperationsCommute : Prop :=
  ∀ (d e : HostOp) (s s₁ s₂ : State), isDecOp d = true → isEncOp e = true → runOp d s = .next s₁ →
    runOp e s₁ = .next s₂ →
    ∃ s₃ s₄ : State, runOp e s = .next s₃ ∧ runOp d s₃ = .next s₄
      ∧ s₄.dec = s₂.dec ∧ s₄.enc = s₂.enc ∧ s₄.xm = s₂.xm ∧ s₄.pending = s₂.pending
end

