-- ==== Sys2Proof/Laws/Operands.lean ====
section
/-! SUPPORT. The small laws of the pure operand functions. -/

namespace Sys2Proof.Machine

@[simp] theorem maskFrom_length (k : Key) (i : Nat) (s : Bytes) : (maskFrom k i s).length = s.length := by
  induction s generalizing i with
  | nil => rfl
  | cons b s ih => simp [maskFrom, ih]

@[simp] theorem mask_length (s : Bytes) (k : Key) : (mask s k).length = s.length := maskFrom_length k 0 s

@[simp] theorem maskOpt_length (s : Bytes) (k : Option Key) : (maskOpt s k).length = s.length := by
  cases k <;> simp [maskOpt]

/-- Masking with the same key from the same index twice gives the bytes back (40_masking.md R132). -/
theorem maskFrom_maskFrom (k : Key) (i : Nat) (s : Bytes) : maskFrom k i (maskFrom k i s) = s := by
  induction s generalizing i with
  | nil => rfl
  | cons b s ih => simp [maskFrom, ih]

theorem maskOpt_maskOpt (s : Bytes) (k : Option Key) : maskOpt (maskOpt s k) k = s := by
  cases k with
  | none => rfl
  | some k => exact maskFrom_maskFrom k 0 s

@[simp] theorem keyBytes_length (k : Key) : (keyBytes k).length = 4 := rfl
@[simp] theorem keyOfBytes_keyBytes (k : Key) : keyOfBytes (keyBytes k) = some k := rfl
@[simp] theorem be16_length (v : BitVec 16) : (be16 v).length = 2 := rfl
@[simp] theorem be64_length (v : BitVec 64) : (be64 v).length = 8 := rfl

theorem fromBe_be16 (v : BitVec 16) : fromBe (be16 v) = v.toNat := by
  have := v.isLt
  simp [fromBe, be16, BitVec.extractLsb'_toNat, Nat.shiftRight_eq_div_pow]
  omega

theorem fromBe_be64 (v : BitVec 64) : fromBe (be64 v) = v.toNat := by
  have := v.isLt
  simp [fromBe, be64, BitVec.extractLsb'_toNat, Nat.shiftRight_eq_div_pow]
  omega

/-- A big-endian number is bounded by its number of bytes. -/
theorem fromBe_lt (s : Bytes) : fromBe s < 256 ^ s.length := by
  unfold fromBe
  suffices h : ∀ (s : Bytes) (a n : Nat), a < 256 ^ n → s.foldl (fun a b => a * 256 + b.toNat) a < 256 ^ (n + s.length) by
    simpa using h s 0 0 (by simp)
  intro s
  induction s with
  | nil => intro a n h; simpa using h
  | cons b s ih =>
    intro a n h
    have hb := b.isLt
    have := ih (a * 256 + b.toNat) (n + 1) (by rw [Nat.pow_succ]; omega)
    simpa [Nat.add_assoc, Nat.add_comm 1] using this

theorem payloadFits_iff {p : Bytes} : payloadFits p = true ↔ p.length < 2 ^ 64 := by simp [payloadFits]

theorem payloadLen_toNat {p : Bytes} (h : payloadFits p = true) : (payloadLen p).toNat = p.length := by
  rw [payloadFits_iff] at h
  simp only [payloadLen, BitVec.toNat_ofNat]
  omega

theorem payloadFits_congr {p q : Bytes} (h : p.length = q.length) : payloadFits p = payloadFits q := by
  simp [payloadFits, h]

theorem payloadLen_congr {p q : Bytes} (h : p.length = q.length) : payloadLen p = payloadLen q := by
  simp [payloadLen, h]

/-! ### The header fields -/

theorem finOf_firstByteOf : ∀ f r o, finOf (firstByteOf f r o) = f := by decide
theorem rsvOf_firstByteOf : ∀ f r o, rsvOf (firstByteOf f r o) = r := by decide
theorem opcodeOf_firstByteOf : ∀ f r o, opcodeOf (firstByteOf f r o) = o := by decide
theorem maskedOf_secondByteOf : ∀ m l, maskedOf (secondByteOf m l) = m := by decide
theorem len7Of_secondByteOf : ∀ m l, len7Of (secondByteOf m l) = l := by decide

end Sys2Proof.Machine
end

