-- ==== Sys2Proof/Laws/State.lean ====
section
/-! SUPPORT. What each named update of the state leaves in each field; every lemma is true by `rfl`. -/

namespace Sys2Proof.Machine

/-! ### consume, out, emit, raise, decReset -/

@[simp] theorem consume_inbuf (n : Nat) (s : State) : (consume n s).dec.inbuf = s.dec.inbuf.drop n := rfl
@[simp] theorem consume_offset (n : Nat) (s : State) : (consume n s).dec.offset = s.dec.offset + n := rfl
@[simp] theorem consume_frameStart (n : Nat) (s : State) : (consume n s).dec.frameStart = s.dec.frameStart := rfl
@[simp] theorem consume_dead (n : Nat) (s : State) : (consume n s).dec.dead = s.dec.dead := rfl
@[simp] theorem consume_errCode (n : Nat) (s : State) : (consume n s).dec.errCode = s.dec.errCode := rfl
@[simp] theorem consume_acc (n : Nat) (s : State) : (consume n s).dec.acc = s.dec.acc := rfl
@[simp] theorem consume_msgType (n : Nat) (s : State) : (consume n s).dec.msgType = s.dec.msgType := rfl
@[simp] theorem consume_cfg (n : Nat) (s : State) : (consume n s).cfg = s.cfg := rfl
@[simp] theorem consume_enc (n : Nat) (s : State) : (consume n s).enc = s.enc := rfl
@[simp] theorem consume_xm (n : Nat) (s : State) : (consume n s).xm = s.xm := rfl
@[simp] theorem consume_pending (n : Nat) (s : State) : (consume n s).pending = s.pending := rfl
@[simp] theorem consume_outputs (n : Nat) (s : State) : (consume n s).outputs = s.outputs := rfl

@[simp] theorem out_dec (o : Output) (s : State) : (out o s).dec = s.dec := rfl
@[simp] theorem out_enc (o : Output) (s : State) : (out o s).enc = s.enc := rfl
@[simp] theorem out_xm (o : Output) (s : State) : (out o s).xm = s.xm := rfl
@[simp] theorem out_cfg (o : Output) (s : State) : (out o s).cfg = s.cfg := rfl
@[simp] theorem out_pending (o : Output) (s : State) : (out o s).pending = s.pending := rfl
@[simp] theorem out_outputs (o : Output) (s : State) : (out o s).outputs = s.outputs ++ [o] := rfl

@[simp] theorem emit_dec (e : Event) (s : State) : (emit e s).dec = s.dec := rfl
@[simp] theorem emit_enc (e : Event) (s : State) : (emit e s).enc = s.enc := rfl
@[simp] theorem emit_xm (e : Event) (s : State) : (emit e s).xm = s.xm := rfl
@[simp] theorem emit_cfg (e : Event) (s : State) : (emit e s).cfg = s.cfg := rfl
@[simp] theorem emit_pending (e : Event) (s : State) : (emit e s).pending = s.pending := rfl
@[simp] theorem emit_outputs (e : Event) (s : State) : (emit e s).outputs = s.outputs ++ [.event e] := rfl

@[simp] theorem raise_dec (e : DecError) (s : State) :
    (raise e s).dec = { s.dec with dead := true, errCode := errorCode e, inbuf := [] } := rfl
@[simp] theorem raise_enc (e : DecError) (s : State) : (raise e s).enc = s.enc := rfl
@[simp] theorem raise_xm (e : DecError) (s : State) : (raise e s).xm = s.xm := rfl
@[simp] theorem raise_cfg (e : DecError) (s : State) : (raise e s).cfg = s.cfg := rfl
@[simp] theorem raise_pending (e : DecError) (s : State) : (raise e s).pending = s.pending := rfl
@[simp] theorem raise_outputs (e : DecError) (s : State) :
    (raise e s).outputs = s.outputs ++ [.event (.error e s.dec.frameStart s.dec.offset)] := rfl

@[simp] theorem decReset_dec (s : State) : (decReset s).dec = .reset := rfl
@[simp] theorem decReset_enc (s : State) : (decReset s).enc = s.enc := rfl
@[simp] theorem decReset_xm (s : State) : (decReset s).xm = s.xm := rfl
@[simp] theorem decReset_cfg (s : State) : (decReset s).cfg = s.cfg := rfl
@[simp] theorem decReset_pending (s : State) : (decReset s).pending = s.pending := rfl
@[simp] theorem decReset_outputs (s : State) : (decReset s).outputs = s.outputs := rfl

/-! ### clearScratch, setMsgType, deliver, buffer -/

@[simp] theorem clearScratch_dec (s : State) :
    (clearScratch s).dec = { s.dec with firstByte := none, secondByte := none, maskKey := none, payloadLength := none, payload := none, phase := .header } := rfl
@[simp] theorem clearScratch_enc (s : State) : (clearScratch s).enc = s.enc := rfl
@[simp] theorem clearScratch_xm (s : State) : (clearScratch s).xm = s.xm := rfl
@[simp] theorem clearScratch_cfg (s : State) : (clearScratch s).cfg = s.cfg := rfl
@[simp] theorem clearScratch_pending (s : State) : (clearScratch s).pending = s.pending := rfl
@[simp] theorem clearScratch_outputs (s : State) : (clearScratch s).outputs = s.outputs := rfl

@[simp] theorem setMsgType_dec (t : MsgType) (s : State) : (setMsgType t s).dec = { s.dec with msgType := t } := rfl
@[simp] theorem setMsgType_enc (t : MsgType) (s : State) : (setMsgType t s).enc = s.enc := rfl
@[simp] theorem setMsgType_xm (t : MsgType) (s : State) : (setMsgType t s).xm = s.xm := rfl
@[simp] theorem setMsgType_cfg (t : MsgType) (s : State) : (setMsgType t s).cfg = s.cfg := rfl
@[simp] theorem setMsgType_pending (t : MsgType) (s : State) : (setMsgType t s).pending = s.pending := rfl
@[simp] theorem setMsgType_outputs (t : MsgType) (s : State) : (setMsgType t s).outputs = s.outputs := rfl

@[simp] theorem deliver_dec (s : State) : (deliver s).dec = { s.dec with acc := none, msgType := .none } := rfl
@[simp] theorem deliver_enc (s : State) : (deliver s).enc = s.enc := rfl
@[simp] theorem deliver_xm (s : State) : (deliver s).xm = s.xm := rfl
@[simp] theorem deliver_cfg (s : State) : (deliver s).cfg = s.cfg := rfl
@[simp] theorem deliver_pending (s : State) : (deliver s).pending = s.pending := rfl
@[simp] theorem deliver_outputs (s : State) :
    (deliver s).outputs = s.outputs ++ [.event (.message s.dec.msgType (accBytes s.dec))] := rfl

@[simp] theorem buffer_dec (c : Bytes) (s : State) : (buffer c s).dec = { s.dec with inbuf := s.dec.inbuf ++ c } := rfl
@[simp] theorem buffer_enc (c : Bytes) (s : State) : (buffer c s).enc = s.enc := rfl
@[simp] theorem buffer_xm (c : Bytes) (s : State) : (buffer c s).xm = s.xm := rfl
@[simp] theorem buffer_cfg (c : Bytes) (s : State) : (buffer c s).cfg = s.cfg := rfl
@[simp] theorem buffer_pending (c : Bytes) (s : State) : (buffer c s).pending = s.pending := rfl
@[simp] theorem buffer_outputs (c : Bytes) (s : State) : (buffer c s).outputs = s.outputs := rfl

/-! ### the phase steps that are plain updates -/

@[simp] theorem headerStep_dec (s : State) :
    (headerStep s).dec = { s.dec with inbuf := s.dec.inbuf.drop 2, offset := s.dec.offset + 2, frameStart := s.dec.offset, firstByte := s.dec.inbuf[0]?, secondByte := s.dec.inbuf[1]?, phase := .payloadLength } := rfl
@[simp] theorem headerStep_enc (s : State) : (headerStep s).enc = s.enc := rfl
@[simp] theorem headerStep_xm (s : State) : (headerStep s).xm = s.xm := rfl
@[simp] theorem headerStep_cfg (s : State) : (headerStep s).cfg = s.cfg := rfl
@[simp] theorem headerStep_pending (s : State) : (headerStep s).pending = s.pending := rfl
@[simp] theorem headerStep_outputs (s : State) : (headerStep s).outputs = s.outputs := rfl

@[simp] theorem maskStep_dec (s : State) :
    (maskStep s).dec = { s.dec with inbuf := s.dec.inbuf.drop 4, offset := s.dec.offset + 4, maskKey := keyOfBytes (s.dec.inbuf.take 4), phase := .payload } := rfl
@[simp] theorem maskStep_enc (s : State) : (maskStep s).enc = s.enc := rfl
@[simp] theorem maskStep_xm (s : State) : (maskStep s).xm = s.xm := rfl
@[simp] theorem maskStep_cfg (s : State) : (maskStep s).cfg = s.cfg := rfl
@[simp] theorem maskStep_pending (s : State) : (maskStep s).pending = s.pending := rfl
@[simp] theorem maskStep_outputs (s : State) : (maskStep s).outputs = s.outputs := rfl

@[simp] theorem takePayload_dec (n : Nat) (k : Option Key) (s : State) :
    (takePayload n k s).dec = { s.dec with inbuf := s.dec.inbuf.drop n, offset := s.dec.offset + n, payload := some (maskOpt (s.dec.inbuf.take n) k), phase := .complete } := rfl
@[simp] theorem takePayload_enc (n : Nat) (k : Option Key) (s : State) : (takePayload n k s).enc = s.enc := rfl
@[simp] theorem takePayload_xm (n : Nat) (k : Option Key) (s : State) : (takePayload n k s).xm = s.xm := rfl
@[simp] theorem takePayload_cfg (n : Nat) (k : Option Key) (s : State) : (takePayload n k s).cfg = s.cfg := rfl
@[simp] theorem takePayload_pending (n : Nat) (k : Option Key) (s : State) : (takePayload n k s).pending = s.pending := rfl
@[simp] theorem takePayload_outputs (n : Nat) (k : Option Key) (s : State) : (takePayload n k s).outputs = s.outputs := rfl

/-! ### XM and STATUS -/

@[simp] theorem xmLoadKey_xm (k : Key) (s : State) : (xmLoadKey k s).xm = ⟨some k, 0⟩ := rfl
@[simp] theorem xmLoadKey_dec (k : Key) (s : State) : (xmLoadKey k s).dec = s.dec := rfl
@[simp] theorem xmLoadKey_enc (k : Key) (s : State) : (xmLoadKey k s).enc = s.enc := rfl
@[simp] theorem xmLoadKey_cfg (k : Key) (s : State) : (xmLoadKey k s).cfg = s.cfg := rfl
@[simp] theorem xmLoadKey_pending (k : Key) (s : State) : (xmLoadKey k s).pending = s.pending := rfl
@[simp] theorem xmLoadKey_outputs (k : Key) (s : State) : (xmLoadKey k s).outputs = s.outputs := rfl

@[simp] theorem decStatus_dec (s : State) : (decStatus s).dec = s.dec := rfl
@[simp] theorem decStatus_enc (s : State) : (decStatus s).enc = s.enc := rfl
@[simp] theorem decStatus_xm (s : State) : (decStatus s).xm = s.xm := rfl
@[simp] theorem decStatus_cfg (s : State) : (decStatus s).cfg = s.cfg := rfl
@[simp] theorem decStatus_pending (s : State) : (decStatus s).pending = s.pending := rfl
@[simp] theorem decStatus_outputs (s : State) :
    (decStatus s).outputs = s.outputs ++ [.status (statusWord s.dec)] := rfl

end Sys2Proof.Machine
end

