-- ==== Sys2Proof/Laws/Ops.lean ====
section
/-! SUPPORT. Sequencing of outcomes, and the guard of the DEC rows. -/

namespace Sys2Proof.Machine

@[simp] theorem andThen_next (s : State) (k : State → Out) : andThen (.next s) k = k s := rfl
@[simp] theorem andThen_fault (r : Fault) (k : State → Out) : andThen (.fault r) k = .fault r := rfl
@[simp] theorem andThen_refused (r : Refusal) (k : State → Out) : andThen (.refused r) k = .refused r := rfl

/-- A sequence answers a next state iff both parts do. -/
theorem andThen_eq_next {o : Out} {k : State → Out} {t : State} :
    andThen o k = .next t ↔ ∃ s, o = .next s ∧ k s = .next t := by
  cases o <;> simp

/-- A sequence faults iff one of its parts does. -/
theorem andThen_eq_fault {o : Out} {k : State → Out} {r : Fault} :
    andThen o k = .fault r ↔ o = .fault r ∨ ∃ s, o = .next s ∧ k s = .fault r := by
  cases o <;> simp

theorem andThen_assoc (o : Out) (j k : State → Out) :
    andThen (andThen o j) k = andThen o (fun s => andThen (j s) k) := by
  cases o <;> rfl

theorem andThen_congr {o : Out} {j k : State → Out} (h : ∀ s, o = .next s → j s = k s) : andThen o j = andThen o k := by
  cases o with
  | next s => exact h s rfl
  | fault r => rfl
  | refused r => rfl

theorem whenLive_live {s : State} (h : s.dec.dead = false) (k : State → Out) : whenLive s k = k s := by
  simp [whenLive, h]

theorem whenLive_dead {s : State} (h : s.dec.dead = true) (k : State → Out) : whenLive s k = .next s := by
  simp [whenLive, h]

theorem afterCompletion_live {s : State} (h : s.dec.dead = false) : afterCompletion s = clearScratch s := by
  simp [afterCompletion, h]

theorem afterCompletion_dead {s : State} (h : s.dec.dead = true) : afterCompletion s = s := by
  simp [afterCompletion, h]

/-- What `accumulate` can do: append within the limit, or refuse (R212, U2). -/
theorem accumulate_eq (p : Bytes) (s : State) :
    accumulate p s = if allowsMessage s.cfg (accBytes s.dec ++ p).length
      then .next { s with dec := { s.dec with acc := some (accBytes s.dec ++ p) } } else .refused .messageLimit := by
  unfold accumulate
  cases allowsMessage s.cfg (accBytes s.dec ++ p).length <;> rfl

theorem accumulate_eq_next {p : Bytes} {s t : State} :
    accumulate p s = .next t ↔ allowsMessage s.cfg (accBytes s.dec ++ p).length = true
      ∧ t = { s with dec := { s.dec with acc := some (accBytes s.dec ++ p) } } := by
  rw [accumulate_eq]
  cases allowsMessage s.cfg (accBytes s.dec ++ p).length with
  | true => simp only [if_true, Host.Outcome.next.injEq, true_and]; exact eq_comm
  | false => simp

@[simp] theorem allowsFrame_none (n : Nat) (m : Option Nat) : allowsFrame ⟨none, m⟩ n = true := rfl
@[simp] theorem allowsMessage_none (n : Nat) (m : Option Nat) : allowsMessage ⟨m, none⟩ n = true := rfl

end Sys2Proof.Machine
end

