-- ==== Sys2Proof/Laws/Encoder.lean ====
section
/-! SUPPORT. The encoder's operations, each said once. -/

namespace Sys2Proof.Machine

/-- The message register after a build (42_encoder.md section 2). -/
def built (t : FrameType) (p : Bytes) : EncState :=
  { mValid := true, mType := t, mPayload := p, mMasked := false, mKey := none }

/-- What `build` can do: write the whole register, or refuse a payload outside the operand type (U17). -/
theorem build_eq (t : FrameType) (p : Bytes) (s : State) :
    build t p s = if payloadFits p then .next { s with enc := built t p } else .refused .payloadTooLong := by
  unfold build
  cases payloadFits p <;> rfl

/-- ENC.MASK on a built, unmasked message (R157). -/
theorem maskMessage_ok {k : Key} {s : State} (hv : s.enc.mValid = true) (hm : s.enc.mMasked = false) :
    maskMessage k s =
      .next { s with enc := { s.enc with mKey := some k, mMasked := true, mPayload := mask s.enc.mPayload k } } := by
  simp [maskMessage, hv, hm]

/-- All that ENC.MASK can do: mask a built, unmasked message, or refuse (R157 to R159). -/
theorem maskMessage_cases (k : Key) (s : State) :
    (s.enc.mValid = true ∧ s.enc.mMasked = false ∧ maskMessage k s =
      .next { s with enc := { s.enc with mKey := some k, mMasked := true, mPayload := mask s.enc.mPayload k } }) ∨
    (s.enc.mValid = false ∧ maskMessage k s = .refused .noMessage) ∨
    (s.enc.mValid = true ∧ s.enc.mMasked = true ∧ maskMessage k s = .refused .alreadyMasked) := by
  unfold maskMessage
  cases s.enc.mValid <;> cases s.enc.mMasked <;> simp

/-- When ENC.EMIT answers a next state, it has returned one frame and written nothing (R160). -/
theorem emitMessage_next {s t : State} (h : emitMessage s = .next t) : ∃ bytes, t = out (.frame bytes) s := by
  unfold emitMessage at h
  split at h
  · cases h
  · cases h
  · split at h
    · exact ⟨_, ((Host.Outcome.next.injEq _ _).mp h).symm⟩
    · exact ⟨_, ((Host.Outcome.next.injEq _ _).mp h).symm⟩
    · cases h

/-- ENC.EMIT on a register that satisfies R39. -/
theorem emitMessage_ok {s : State} (hv : s.enc.mValid = true) (hk : s.enc.mKey.isSome = s.enc.mMasked)
    (hf : payloadFits s.enc.mPayload = true) :
    emitMessage s = .next (out (.frame (emitBytes s.enc.mType s.enc.mKey s.enc.mPayload)) s) := by
  unfold emitMessage
  rw [hv, hf]
  cases hm : s.enc.mMasked <;> cases hkey : s.enc.mKey <;> simp_all

/-- An ENC row other than CLOSE, as one update (R150, R157, R160). -/
theorem build_mask_emit (t : FrameType) (k : Option Key) {p : Bytes} (s : State) (h : payloadFits p = true) :
    andThen (build t p s) (maskThenEmit k) =
      .next (out (.frame (emitBytes t k (maskOpt p k)))
        { s with enc := { mValid := true, mType := t, mPayload := maskOpt p k, mMasked := k.isSome, mKey := k } }) := by
  rw [build_eq, if_pos h, andThen_next]
  cases k with
  | none => exact emitMessage_ok rfl rfl h
  | some k =>
    simp only [maskThenEmit]
    rw [maskMessage_ok rfl rfl, andThen_next]
    exact emitMessage_ok rfl rfl ((payloadFits_congr (by simp [built])).trans h)

/-- Masking keeps the length, so the emitted frame is the encoding of the application payload (R132, R160). -/
theorem emitBytes_maskOpt (t : FrameType) (k : Option Key) (p : Bytes) :
    emitBytes t k (maskOpt p k) = frameBytes (encFirstByte t) k p := by
  simp [emitBytes, frameBytes, payloadLen_congr (maskOpt_length p k)]

end Sys2Proof.Machine
end

