-- ==== Sys2Proof/Laws/Frames.lean ====
section
/-! SUPPORT. What the DEC rows of `exec` can do, said once. -/

namespace Sys2Proof.Machine

/-- The message type a data frame leaves: CONT keeps it, TEXT and BINARY set it (44_frame_completion.md R212 to R214). -/
def retype (m : Option MsgType) (s : State) : State := m.elim s (fun t => setMsgType t s)

@[simp] theorem retype_dec (m : Option MsgType) (s : State) :
    (retype m s).dec = { s.dec with msgType := m.getD s.dec.msgType } := by cases m <;> rfl
@[simp] theorem retype_enc (m : Option MsgType) (s : State) : (retype m s).enc = s.enc := by cases m <;> rfl
@[simp] theorem retype_xm (m : Option MsgType) (s : State) : (retype m s).xm = s.xm := by cases m <;> rfl
@[simp] theorem retype_cfg (m : Option MsgType) (s : State) : (retype m s).cfg = s.cfg := by cases m <;> rfl
@[simp] theorem retype_pending (m : Option MsgType) (s : State) : (retype m s).pending = s.pending := by cases m <;> rfl
@[simp] theorem retype_outputs (m : Option MsgType) (s : State) : (retype m s).outputs = s.outputs := by cases m <;> rfl

/-- The state with a new accumulation and message type and some outputs more. -/
def afterFrame (acc : Option Bytes) (m : MsgType) (os : List Output) (s : State) : State :=
  { s with dec := { s.dec with acc := acc, msgType := m }, outputs := s.outputs ++ os }

@[simp] theorem afterFrame_dec (acc : Option Bytes) (m : MsgType) (os : List Output) (s : State) :
    (afterFrame acc m os s).dec = { s.dec with acc := acc, msgType := m } := rfl
@[simp] theorem afterFrame_enc (acc : Option Bytes) (m : MsgType) (os : List Output) (s : State) :
    (afterFrame acc m os s).enc = s.enc := rfl
@[simp] theorem afterFrame_xm (acc : Option Bytes) (m : MsgType) (os : List Output) (s : State) :
    (afterFrame acc m os s).xm = s.xm := rfl
@[simp] theorem afterFrame_cfg (acc : Option Bytes) (m : MsgType) (os : List Output) (s : State) :
    (afterFrame acc m os s).cfg = s.cfg := rfl
@[simp] theorem afterFrame_pending (acc : Option Bytes) (m : MsgType) (os : List Output) (s : State) :
    (afterFrame acc m os s).pending = s.pending := rfl
@[simp] theorem afterFrame_outputs (acc : Option Bytes) (m : MsgType) (os : List Output) (s : State) :
    (afterFrame acc m os s).outputs = s.outputs ++ os := rfl

theorem retype_eq (m : Option MsgType) (s : State) :
    retype m s = afterFrame s.dec.acc (m.getD s.dec.msgType) [] s := by
  cases m <;> simp [retype, afterFrame, setMsgType]

/-- On a live decoder a DEC row is a data frame, a control frame or a reserved opcode, with the same operands in every
state. -/
theorem exec_dec_shape {i : Instr} (h : i.isEncoder = false) :
    (∃ p fin m, ∀ s : State, s.dec.dead = false →
        exec i s = andThen (accumulate p s) fun u => .next (endOfFragment fin (retype m u))) ∨
    (∃ fin e, isErrorOutput (.event e) = false ∧ ∀ s : State, s.dec.dead = false → exec i s = .next (controlFrame fin e s)) ∨
    (∀ s : State, s.dec.dead = false → exec i s = .next (raise .unknownOpcode s)) := by
  cases i with
  | cont f => exact .inl ⟨f.payload, f.fin, none, fun s hs => by simp only [exec, execCont, whenLive_live hs]; rfl⟩
  | text f =>
    exact .inl ⟨f.payload, f.fin, some .text, fun s hs => by simp only [exec, execText, whenLive_live hs]; rfl⟩
  | binary f =>
    exact .inl ⟨f.payload, f.fin, some .binary, fun s hs => by simp only [exec, execBinary, whenLive_live hs]; rfl⟩
  | close f =>
    exact .inr (.inl ⟨f.fin, .close (closeMeaning f.payload).1 (closeMeaning f.payload).2, rfl,
      fun s hs => by simp only [exec, execClose, whenLive_live hs]⟩)
  | ping f =>
    exact .inr (.inl ⟨f.fin, .ping f.payload, rfl, fun s hs => by simp only [exec, execPing, whenLive_live hs]⟩)
  | pong f =>
    exact .inr (.inl ⟨f.fin, .pong f.payload, rfl, fun s hs => by simp only [exec, execPong, whenLive_live hs]⟩)
  | rsvd3 f => exact .inr (.inr fun s hs => by simp only [exec, execRsvd3, reservedFrame, whenLive_live hs])
  | rsvd4to7 lo f => exact .inr (.inr fun s hs => by simp only [exec, execRsvd4to7, reservedFrame, whenLive_live hs])
  | rsvd11 f => exact .inr (.inr fun s hs => by simp only [exec, execRsvd11, reservedFrame, whenLive_live hs])
  | rsvd12to15 lo f =>
    exact .inr (.inr fun s hs => by simp only [exec, execRsvd12to15, reservedFrame, whenLive_live hs])
  | encCont k p | encText k p | encBinary k p | encClose k p st r | encPing k p | encPong k p => cases h

/-- A header always spells a DEC row. -/
theorem decodeOpcode_isEncoder (op : BitVec 4) (f : Frame) : (decodeOpcode op f).isEncoder = false := by
  unfold decodeOpcode
  split <;> rfl

/-- `deliver_message` raises or delivers (R216). -/
theorem deliverMessage_cases (s : State) :
    (rejectsText s.dec = true ∧ deliverMessage s = raise .invalidUtf8Text s) ∨
    (rejectsText s.dec = false ∧ deliverMessage s = deliver s) := by
  unfold deliverMessage
  cases rejectsText s.dec <;> simp

/-- The end of a data frame: nothing, an error, or a delivery. -/
theorem endOfFragment_cases (fin : Bool) (s : State) :
    (fin = false ∧ endOfFragment fin s = s) ∨
    (fin = true ∧ rejectsText s.dec = true ∧ endOfFragment fin s = raise .invalidUtf8Text s) ∨
    (fin = true ∧ rejectsText s.dec = false ∧ endOfFragment fin s = deliver s) := by
  cases fin with
  | false => exact .inl ⟨rfl, rfl⟩
  | true =>
    rcases deliverMessage_cases s with ⟨h, e⟩ | ⟨h, e⟩
    · exact .inr (.inl ⟨rfl, h, e⟩)
    · exact .inr (.inr ⟨rfl, h, e⟩)

/-- Everything a DEC row can do on a live decoder when it answers a next state: it keeps the decoder live with a new
accumulation and type and at most one event, none of them an error, or it raises one error after at most an append. An
absent accumulation goes with the type NONE, or with nothing changed. -/
theorem exec_dec_cases {i : Instr} (h : i.isEncoder = false) {s t : State} (hl : s.dec.dead = false)
    (ht : exec i s = .next t) :
    (∃ acc m os, t = afterFrame acc m os s ∧ (acc = none → m = .none ∨ (s.dec.acc = none ∧ m = s.dec.msgType))
        ∧ os.length ≤ 1 ∧ errorCount os = 0) ∨
    (∃ acc m e, t = raise e (afterFrame acc m [] s) ∧ (acc = none → s.dec.acc = none ∧ m = s.dec.msgType)
        ∧ e ≠ .nonMinimalLengthEncoding) := by
  rcases exec_dec_shape h with ⟨p, fin, m, hs⟩ | ⟨fin, e, he, hs⟩ | hs
  · rw [hs s hl] at ht
    obtain ⟨u, hu, ht⟩ := andThen_eq_next.mp ht
    have hu' : u = afterFrame (some (accBytes s.dec ++ p)) s.dec.msgType [] s := by
      rw [(accumulate_eq_next.mp hu).2]; simp [afterFrame]
    obtain rfl := (Host.Outcome.next.injEq _ _).mp ht
    have hr : retype m u = afterFrame (some (accBytes s.dec ++ p)) (m.getD s.dec.msgType) [] s := by
      rw [retype_eq, hu']; simp [afterFrame]
    rcases endOfFragment_cases fin (retype m u) with ⟨_, e⟩ | ⟨_, _, e⟩ | ⟨_, _, e⟩
    · exact .inl ⟨some (accBytes s.dec ++ p), m.getD s.dec.msgType, [], by rw [e, hr], nofun, by simp, rfl⟩
    · exact .inr ⟨some (accBytes s.dec ++ p), m.getD s.dec.msgType, .invalidUtf8Text, by rw [e, hr], nofun, nofun⟩
    · refine .inl ⟨none, .none, [.event (.message (m.getD s.dec.msgType) (accBytes s.dec ++ p))], ?_, fun _ => .inl rfl,
        by simp, rfl⟩
      rw [e, hr]
      simp [deliver, emit, out, afterFrame, accBytes]
  · rw [hs s hl] at ht
    obtain rfl := (Host.Outcome.next.injEq _ _).mp ht
    cases fin with
    | false =>
      exact .inr ⟨s.dec.acc, s.dec.msgType, .fragmentedControlFrame, by simp [controlFrame, afterFrame], fun h => ⟨h, rfl⟩,
        nofun⟩
    | true =>
      exact .inl ⟨s.dec.acc, s.dec.msgType, [.event e], rfl, fun h => .inr ⟨h, rfl⟩, by simp, by simp [errorCount, he]⟩
  · rw [hs s hl] at ht
    obtain rfl := (Host.Outcome.next.injEq _ _).mp ht
    exact .inr ⟨s.dec.acc, s.dec.msgType, .unknownOpcode, by simp [afterFrame], fun h => ⟨h, rfl⟩, nofun⟩

/-- A dead decoder executes no DEC row (60_exceptions.md R258). -/
theorem exec_dec_dead {i : Instr} (h : i.isEncoder = false) {s : State} (hd : s.dec.dead = true) :
    exec i s = .next s := by
  cases i with
  | cont f => simp only [exec, execCont, whenLive_dead hd]
  | text f => simp only [exec, execText, whenLive_dead hd]
  | binary f => simp only [exec, execBinary, whenLive_dead hd]
  | close f => simp only [exec, execClose, whenLive_dead hd]
  | ping f => simp only [exec, execPing, whenLive_dead hd]
  | pong f => simp only [exec, execPong, whenLive_dead hd]
  | rsvd3 f => simp only [exec, execRsvd3, reservedFrame, whenLive_dead hd]
  | rsvd4to7 lo f => simp only [exec, execRsvd4to7, reservedFrame, whenLive_dead hd]
  | rsvd11 f => simp only [exec, execRsvd11, reservedFrame, whenLive_dead hd]
  | rsvd12to15 lo f => simp only [exec, execRsvd12to15, reservedFrame, whenLive_dead hd]
  | encCont k p | encText k p | encBinary k p | encClose k p st r | encPing k p | encPong k p => cases h

/-- No DEC row faults. -/
theorem exec_dec_no_fault {i : Instr} (h : i.isEncoder = false) (s : State) (r : Fault) : exec i s ≠ .fault r := by
  cases hd : s.dec.dead with
  | true => rw [exec_dec_dead h hd]; exact nofun
  | false =>
    rcases exec_dec_shape h with ⟨p, fin, m, hs⟩ | ⟨fin, e, he, hs⟩ | hs
    · rw [hs s hd, accumulate_eq]
      split <;> exact nofun
    · rw [hs s hd]; exact nofun
    · rw [hs s hd]; exact nofun

end Sys2Proof.Machine
end

