-- ==== Sys2Proof/Laws/Feed.lean ====
section
/-! SUPPORT. The phase machine: what one phase step can do, and that `advance` has fuel enough, so that it runs until no
step is enabled (43_decoder_phases.md R186). -/

namespace Sys2Proof.Machine

theorem enabled_iff {d : DecState} : enabled d = true ↔ d.dead = false ∧ phaseReady d = true := by
  simp [enabled]

theorem enabled_dead {d : DecState} (h : d.dead = true) : enabled d = false := by simp [enabled, h]

/-- What the payload-length step can do (R182). -/
theorem lengthStep_cases {s t : State} (h : lengthStep s = .next t) :
    ∃ b, s.dec.secondByte = some b ∧
      ((lenDecode (len7Of b) (s.dec.inbuf.take (extSize (len7Of b))) = .nonMinimal
          ∧ t = raise .nonMinimalLengthEncoding (consume (extSize (len7Of b)) s)) ∨
       (∃ len, lenDecode (len7Of b) (s.dec.inbuf.take (extSize (len7Of b))) = .ok len
          ∧ allowsFrame s.cfg len.toNat = true
          ∧ t = { consume (extSize (len7Of b)) s with dec := { (consume (extSize (len7Of b)) s).dec with
              payloadLength := some len, phase := if maskedOf b then .mask else .payload } })) := by
  unfold lengthStep at h
  split at h
  · cases h
  · rename_i b hb
    refine ⟨b, hb, ?_⟩
    unfold resolveLength at h
    split at h
    · rename_i hd
      exact .inl ⟨hd, ((Host.Outcome.next.injEq _ _).mp h).symm⟩
    · rename_i len hd
      split at h
      · cases h
      · rename_i ha
        exact .inr ⟨len, hd, ha, ((Host.Outcome.next.injEq _ _).mp h).symm⟩

/-- What the payload step can do (R184). -/
theorem payloadStep_cases {s t : State} (h : payloadStep s = .next t) :
    ∃ len b, s.dec.payloadLength = some len ∧ s.dec.secondByte = some b ∧
      ((maskedOf b = false ∧ t = takePayload len.toNat none s) ∨
       (∃ k, maskedOf b = true ∧ s.dec.maskKey = some k ∧ t = takePayload len.toNat (some k) s)) := by
  unfold payloadStep at h
  split at h
  · cases h
  · cases h
  · rename_i len b hl hb
    refine ⟨len, b, hl, hb, ?_⟩
    split at h
    · rename_i hm
      exact .inl ⟨hm, ((Host.Outcome.next.injEq _ _).mp h).symm⟩
    · rename_i k hm hk
      exact .inr ⟨k, hm, hk, ((Host.Outcome.next.injEq _ _).mp h).symm⟩
    · cases h

/-- What the complete step can do (R185). -/
theorem completeStep_cases {s t : State} (h : completeStep s = .next t) :
    ∃ first p u, s.dec.firstByte = some first ∧ s.dec.payload = some p
      ∧ exec (completedInstr first s.dec.maskKey p) s = .next u ∧ t = afterCompletion u := by
  unfold completeStep at h
  split at h
  · cases h
  · cases h
  · rename_i first p hf hp
    obtain ⟨u, hu, ht⟩ := andThen_eq_next.mp h
    exact ⟨first, p, u, hf, hp, hu, ((Host.Outcome.next.injEq _ _).mp ht).symm⟩

/-- The place of a phase in the frame, counted down to the next header. -/
def phaseRank : Phase → Nat
  | .header => 0
  | .payloadLength => 4
  | .mask => 3
  | .payload => 2
  | .complete => 1

/-- A measure that every phase step of a live decoder lowers (R186). -/
def feedMeasure (d : DecState) : Nat := 3 * d.inbuf.length + phaseRank d.phase

theorem feedMeasure_lt_fuel (d : DecState) : feedMeasure d < advanceFuel d := by
  unfold feedMeasure advanceFuel
  cases d.phase <;> simp [phaseRank]

/-- An enabled step kills the decoder or lowers the measure. -/
theorem phaseStep_measure {s t : State} (h : enabled s.dec = true) (hs : phaseStep s = .next t) :
    t.dec.dead = true ∨ feedMeasure t.dec < feedMeasure s.dec := by
  obtain ⟨hl, hr⟩ := enabled_iff.mp h
  unfold phaseStep at hs
  unfold phaseReady at hr
  unfold feedMeasure
  cases hp : s.dec.phase with
  | header =>
    simp only [hp, decide_eq_true_eq, Host.Outcome.next.injEq] at hr hs
    subst hs
    right; simp [phaseRank]; omega
  | payloadLength =>
    simp only [hp] at hs
    obtain ⟨b, hb, ⟨_, rfl⟩ | ⟨len, _, _, rfl⟩⟩ := lengthStep_cases hs
    · exact .inl rfl
    · right
      have : phaseRank (if maskedOf b then .mask else .payload) < 4 := by cases maskedOf b <;> decide
      simp only [consume_inbuf, List.length_drop, phaseRank] at this ⊢
      omega
  | mask =>
    simp only [hp, decide_eq_true_eq, Host.Outcome.next.injEq] at hr hs
    subst hs
    right; simp [phaseRank]
  | payload =>
    simp only [hp] at hs
    obtain ⟨len, b, _, _, ⟨_, rfl⟩ | ⟨k, _, _, rfl⟩⟩ := payloadStep_cases hs <;>
      (right; simp [phaseRank])
  | complete =>
    simp only [hp] at hs
    obtain ⟨first, p, u, _, _, hu, rfl⟩ := completeStep_cases hs
    rcases exec_dec_cases (decodeOpcode_isEncoder _ _) hl hu with ⟨acc, m, os, rfl, _⟩ | ⟨acc, m, e, rfl, _⟩
    · right
      rw [afterCompletion_live (by simpa using hl)]
      simp [phaseRank]
    · exact .inl rfl

theorem advance_disabled {n : Nat} {s : State} (h : enabled s.dec = false) : advance n s = .next s := by
  cases n <;> simp [advance, h]

/-- More fuel than the measure makes no difference. -/
theorem advance_stable (n : Nat) (s : State) (h : feedMeasure s.dec < n) (k : Nat) :
    advance (n + k) s = advance n s := by
  induction n generalizing s with
  | zero => omega
  | succ n ih =>
    rw [Nat.add_right_comm]
    cases he : enabled s.dec with
    | false => rw [advance_disabled he, advance_disabled he]
    | true =>
      simp only [advance, he]
      refine andThen_congr fun t ht => ?_
      rcases phaseStep_measure he ht with hd | hd
      · rw [advance_disabled (enabled_dead hd), advance_disabled (enabled_dead hd)]
      · exact ih t (by omega)

/-- `advance()` of R186: with the fuel FEED gives it. -/
def advanceAll (s : State) : Out := advance (advanceFuel s.dec) s

theorem advance_eq_advanceAll {n : Nat} {s : State} (h : feedMeasure s.dec < n) : advance n s = advanceAll s := by
  unfold advanceAll
  rcases Nat.le_total n (advanceFuel s.dec) with hle | hle
  · obtain ⟨k, hk⟩ := Nat.exists_eq_add_of_le hle
    rw [hk, advance_stable n s h k]
  · obtain ⟨k, hk⟩ := Nat.exists_eq_add_of_le hle
    rw [hk, advance_stable _ s (feedMeasure_lt_fuel _) k]

theorem advanceAll_disabled {s : State} (h : enabled s.dec = false) : advanceAll s = .next s := advance_disabled h

/-- The loop of R186 without fuel: an enabled step, then the loop again. -/
theorem advanceAll_enabled {s : State} (h : enabled s.dec = true) :
    advanceAll s = andThen (phaseStep s) advanceAll := by
  rw [← advance_eq_advanceAll (Nat.lt_succ_of_lt (feedMeasure_lt_fuel _))]
  simp only [advance, h]
  refine andThen_congr fun t ht => ?_
  rcases phaseStep_measure h ht with hd | hd
  · rw [advance_disabled (enabled_dead hd), advanceAll_disabled (enabled_dead hd)]
  · exact advance_eq_advanceAll (by have := feedMeasure_lt_fuel s.dec; omega)

/-- Induction along the run of the phases. -/
theorem advance_induct {P : State → Prop} (hd : ∀ s, enabled s.dec = false → P s)
    (hs : ∀ s, enabled s.dec = true → (∀ t, phaseStep s = .next t → P t) → P s) (s : State) : P s := by
  have key : ∀ n s, feedMeasure s.dec < n → P s := by
    intro n
    induction n with
    | zero => intro s h; omega
    | succ n ih =>
      intro s h
      cases he : enabled s.dec with
      | false => exact hd s he
      | true =>
        refine hs s he fun t ht => ?_
        rcases phaseStep_measure he ht with h' | h'
        · exact hd t (enabled_dead h')
        · exact ih t (by omega)
  exact key _ s (Nat.lt_succ_self _)

theorem feed_dead {c : Bytes} {s : State} (h : s.dec.dead = true) : feed c s = .next s := by simp [feed, h]

theorem feed_live {c : Bytes} {s : State} (h : s.dec.dead = false) : feed c s = advanceAll (buffer c s) := by
  simp [feed, h, advanceAll]

/-- A property that every enabled phase step keeps, FEED keeps (R187). -/
theorem feed_keeps {P : State → Prop} (hstep : ∀ s t, P s → enabled s.dec = true → phaseStep s = .next t → P t)
    {c : Bytes} {s t : State} (hb : s.dec.dead = false → P (buffer c s)) (hd : s.dec.dead = true → P s)
    (h : feed c s = .next t) : P t ∧ enabled t.dec = false := by
  have key : ∀ s : State, P s → ∀ t, advanceAll s = .next t → P t ∧ enabled t.dec = false := by
    refine advance_induct (fun s he hp t ht => ?_) (fun s he ih hp t ht => ?_)
    · rw [advanceAll_disabled he] at ht
      obtain rfl := (Host.Outcome.next.injEq _ _).mp ht
      exact ⟨hp, he⟩
    · rw [advanceAll_enabled he] at ht
      obtain ⟨u, hu, ht⟩ := andThen_eq_next.mp ht
      exact ih u hu (hstep s u hp he hu) t ht
  cases hdead : s.dec.dead with
  | true =>
    rw [feed_dead hdead] at h
    obtain rfl := (Host.Outcome.next.injEq _ _).mp h
    exact ⟨hd hdead, enabled_dead hdead⟩
  | false =>
    rw [feed_live hdead] at h
    exact key _ (hb hdead) t h

end Sys2Proof.Machine
end

