-- ==== Sys2Proof/Laws/PerInstr.lean ====
section
/-! SUPPORT. Statements for all instructions, one lemma per constructor of `Instr`. -/

namespace Sys2Proof.Laws.HeaderFits

open Sys2Proof.Machine

/-- The header word of an encoded instruction belongs to the instruction's row of opcode_table.json
(30_encoding.md R105). -/
def Statement (i : Instr) : Prop :=
  ∃ (first second : Byte) (rest : Bytes), encode i = first :: second :: rest ∧
    headerWord first second &&& (headerRow i).mask = (headerRow i).pattern

/-- The high byte of a header word is all that a row looks at. -/
theorem headerWord_and (first second m : Byte) :
    headerWord first second &&& (m ++ 0#8 : BitVec 16) = (first &&& m) ++ 0#8 := by
  rw [headerWord, BitVec.and_append]
  simp

theorem of_frameBytes {i : Instr} {first m p : Byte} {key : Option Key} {payload : Bytes}
    (he : encode i = frameBytes first key payload) (hr : headerRow i = ⟨m ++ 0#8, p ++ 0#8⟩) (h : first &&& m = p) :
    Statement i := by
  refine ⟨first, _, _, he, ?_⟩
  rw [hr, headerWord_and, h]

theorem cont (f : Frame) : Statement (.cont f) :=
  of_frameBytes (m := 0x0f) (p := 0x00) rfl rfl (by generalize f.fin = a; generalize f.rsv = b; revert a b; decide)

theorem text (f : Frame) : Statement (.text f) :=
  of_frameBytes (m := 0x0f) (p := 0x01) rfl rfl (by generalize f.fin = a; generalize f.rsv = b; revert a b; decide)

theorem binary (f : Frame) : Statement (.binary f) :=
  of_frameBytes (m := 0x0f) (p := 0x02) rfl rfl (by generalize f.fin = a; generalize f.rsv = b; revert a b; decide)

theorem rsvd3 (f : Frame) : Statement (.rsvd3 f) :=
  of_frameBytes (m := 0x0f) (p := 0x03) rfl rfl (by generalize f.fin = a; generalize f.rsv = b; revert a b; decide)

theorem rsvd4to7 (lo : BitVec 2) (f : Frame) : Statement (.rsvd4to7 lo f) :=
  of_frameBytes (m := 0x0c) (p := 0x04) rfl rfl (by generalize f.fin = a; generalize f.rsv = b; revert a b lo; decide)

theorem close (f : Frame) : Statement (.close f) :=
  of_frameBytes (m := 0x0f) (p := 0x08) rfl rfl (by generalize f.fin = a; generalize f.rsv = b; revert a b; decide)

theorem ping (f : Frame) : Statement (.ping f) :=
  of_frameBytes (m := 0x0f) (p := 0x09) rfl rfl (by generalize f.fin = a; generalize f.rsv = b; revert a b; decide)

theorem pong (f : Frame) : Statement (.pong f) :=
  of_frameBytes (m := 0x0f) (p := 0x0a) rfl rfl (by generalize f.fin = a; generalize f.rsv = b; revert a b; decide)

theorem rsvd11 (f : Frame) : Statement (.rsvd11 f) :=
  of_frameBytes (m := 0x0f) (p := 0x0b) rfl rfl (by generalize f.fin = a; generalize f.rsv = b; revert a b; decide)

theorem rsvd12to15 (lo : BitVec 2) (f : Frame) : Statement (.rsvd12to15 lo f) :=
  of_frameBytes (m := 0x0c) (p := 0x0c) rfl rfl (by generalize f.fin = a; generalize f.rsv = b; revert a b lo; decide)

theorem encCont (k : Option Key) (p : Bytes) : Statement (.encCont k p) :=
  of_frameBytes (m := 0xff) (p := 0x00) rfl rfl rfl

theorem encText (k : Option Key) (p : Bytes) : Statement (.encText k p) :=
  of_frameBytes (m := 0xff) (p := 0x81) rfl rfl rfl

theorem encBinary (k : Option Key) (p : Bytes) : Statement (.encBinary k p) :=
  of_frameBytes (m := 0xff) (p := 0x82) rfl rfl rfl

theorem encClose (k : Option Key) (p : Bytes) (st : Option (BitVec 16)) (r : Option Bytes) : Statement (.encClose k p st r) :=
  of_frameBytes (m := 0xff) (p := 0x88) rfl rfl rfl

theorem encPing (k : Option Key) (p : Bytes) : Statement (.encPing k p) :=
  of_frameBytes (m := 0xff) (p := 0x89) rfl rfl rfl

theorem encPong (k : Option Key) (p : Bytes) : Statement (.encPong k p) :=
  of_frameBytes (m := 0xff) (p := 0x8a) rfl rfl rfl

end Sys2Proof.Laws.HeaderFits
end

