-- ==== Sys2Proof/Laws/Step.lean ====
section
/-! SUPPORT. One step of the machine and runs of several (Machine/Step.lean, Host/Core.lean). -/

namespace Sys2Proof.Machine

/-- A step with something pending is its first operation, run after it is taken from the list. -/
theorem step_pending (s : State) (op : HostOp) (ops : List HostOp) :
    step { s with pending := op :: ops } = runOp op { s with pending := ops } := rfl

/-- What a step can do: nothing is pending and nothing changes, or it runs the first pending operation. -/
theorem step_cases {s t : State} (h : step s = .next t) :
    (s.pending = [] ∧ t = s) ∨
      ∃ op ops, s.pending = op :: ops ∧ runOp op { s with pending := ops } = .next t := by
  unfold step runNext at h
  split at h
  · rename_i hp
    exact .inl ⟨hp, ((Host.Outcome.next.injEq _ _).mp h).symm⟩
  · rename_i op ops hp
    exact .inr ⟨op, ops, hp, h⟩

theorem run_zero (s : State) : Host.Core.run core 0 s = .next s := rfl

/-- A run is a step and then the rest of the run. -/
theorem run_succ (n : Nat) (s : State) :
    Host.Core.run core (n + 1) s = andThen (step s) (Host.Core.run core n) := by
  simp only [Host.Core.run]
  generalize hx : core.step s = x
  rw [show step s = x from hx]
  cases x <;> rfl

theorem run_one (s : State) : Host.Core.run core 1 s = step s := by
  rw [run_succ]
  cases step s <;> rfl

end Sys2Proof.Machine
end

