-- ==== Sys2Proof/Tests/Slice0.lean ====
section
/-! SUPPORT. Tests. Expected results are the vectors V<n> and programs P<n> of 95_test_vectors.md or words written out from
30_encoding.md R91 and opcode_table.json, bit by bit. Then one witness per obligation with hypotheses: a state and operands
that meet them all. -/

namespace Sys2Proof.Tests

open Machine

/-! ### Helpers -/

/-- What an outcome hands back: the outputs of the next state, none for a stop. -/
def returned (o : Out) : Option (List Output) :=
  match o with
  | .next s => some s.outputs
  | .fault _ => none
  | .refused _ => none

/-- A field of the next state. -/
def after {α : Type} (f : State → α) (o : Out) : Option α :=
  match o with
  | .next s => some (f s)
  | .fault _ => none
  | .refused _ => none

/-- The reason of a refusal. -/
def refusal (o : Out) : Option Refusal :=
  match o with
  | .next _ => none
  | .fault _ => none
  | .refused r => some r

/-- Reset with one operation pending. -/
def pend (op : HostOp) : State := { State.reset with pending := [op] }

/-- One FEED from reset. -/
def fed (chunk : Bytes) : Out := step (pend (.decFeed chunk))

/-- Reset with a message under reassembly. -/
def accumulating (t : MsgType) (acc : Bytes) : State :=
  { State.reset with dec := { DecState.reset with acc := some acc, msgType := t } }

/-- The decoder dead after an unknown opcode. -/
def killed : State := { State.reset with dec := { DecState.reset with phase := .complete, dead := true, errCode := 1 } }

/-- ENC with a message built. -/
def holding (t : FrameType) (p : Bytes) : State := { State.reset with enc := ⟨true, t, p, false, none⟩ }

def key1 : Key := ⟨0x37, 0xfa, 0x21, 0x3d⟩
def hello : Bytes := [0x48, 0x65, 0x6c, 0x6c, 0x6f]
def helloMasked : Bytes := [0x7f, 0x9f, 0x4d, 0x51, 0x58]
def bye : Bytes := [0x42, 0x79, 0x65]

/-! ### WellFormed: each check refuses an ill-formed term -/

theorem test_payload_outside_the_operand_type (i : Instr) (f : Frame) (k : Option Key) (p : Bytes)
    (hf : f.payload.length = 2 ^ 64) (hp : p.length = 2 ^ 64)
    (h : i ∈ [Instr.cont f, .text f, .binary f, .rsvd3 f, .rsvd4to7 0 f, .close f, .ping f, .pong f, .rsvd11 f,
      .rsvd12to15 3 f, .encCont k p, .encText k p, .encBinary k p, .encClose k p none none, .encPing k p, .encPong k p]) :
    i.wellFormed = false := by
  have hf' : payloadFits f.payload = false := by simp [payloadFits, hf]
  have hp' : payloadFits p = false := by simp [payloadFits, hp]
  simp only [List.mem_cons, List.not_mem_nil, or_false] at h
  rcases h with rfl | rfl | rfl | rfl | rfl | rfl | rfl | rfl | rfl | rfl | rfl | rfl | rfl | rfl | rfl | rfl <;>
    first | exact hf' | exact hp'

theorem test_reason_without_status_is_ill_formed : (Instr.encClose none [] none (some bye)).wellFormed = false := by decide
theorem test_status_and_reason_is_well_formed : (Instr.encClose none [] (some 1001) (some bye)).wellFormed = true := by
  decide

/-! ### Decoding: one word per constructor, written from FIN RSV3 opcode4, mask1 len7 -/

theorem test_decode_cont : decodeFrame [0b00000000, 0b00000001, 0x41] = .ok (.cont ⟨false, 0, none, [0x41]⟩) [] := by decide
theorem test_decode_text : decodeFrame [0b11110001, 0b00000000, 9] = .ok (.text ⟨true, 7, none, []⟩) [9] := by decide
theorem test_decode_binary :
    decodeFrame [0b10110010, 0b10000001, 1, 2, 3, 4, 0x7e] = .ok (.binary ⟨true, 3, some ⟨1, 2, 3, 4⟩, [0x7f]⟩) [] := by decide
theorem test_decode_rsvd3 : decodeFrame [0b10000011, 0b00000000] = .ok (.rsvd3 ⟨true, 0, none, []⟩) [] := by decide
theorem test_decode_rsvd4to7 :
    decodeFrame [0b00000100, 0] = .ok (.rsvd4to7 0 ⟨false, 0, none, []⟩) []
      ∧ decodeFrame [0b00000111, 0] = .ok (.rsvd4to7 3 ⟨false, 0, none, []⟩) [] := by decide
theorem test_decode_close :
    decodeFrame [0b10001000, 0b00000010, 3, 0xe8] = .ok (.close ⟨true, 0, none, [3, 0xe8]⟩) [] := by decide
theorem test_decode_ping : decodeFrame [0b11001001, 0b00000000] = .ok (.ping ⟨true, 4, none, []⟩) [] := by decide
theorem test_decode_pong : decodeFrame [0b00001010, 0b00000001, 5] = .ok (.pong ⟨false, 0, none, [5]⟩) [] := by decide
theorem test_decode_rsvd11 : decodeFrame [0b10001011, 0b00000000] = .ok (.rsvd11 ⟨true, 0, none, []⟩) [] := by decide
theorem test_decode_rsvd12to15 :
    decodeFrame [0b10001100, 0] = .ok (.rsvd12to15 0 ⟨true, 0, none, []⟩) []
      ∧ decodeFrame [0b10001111, 0] = .ok (.rsvd12to15 3 ⟨true, 0, none, []⟩) [] := by decide
/-- V16, the masked column. -/
theorem test_decode_encoder_rows :
    decodeEncoderFrame [0x00, 0x82, 0x11, 0x22, 0x33, 0x44, 0x59, 0x4b] = .ok (.encCont (some ⟨0x11, 0x22, 0x33, 0x44⟩) [0x48, 0x69]) []
      ∧ decodeEncoderFrame [0x81, 0x02, 0x48, 0x69] = .ok (.encText none [0x48, 0x69]) []
      ∧ decodeEncoderFrame [0x82, 0x00] = .ok (.encBinary none []) []
      ∧ decodeEncoderFrame [0x88, 0x00] = .ok (.encClose none [] none none) []
      ∧ decodeEncoderFrame [0x89, 0x82, 0x11, 0x22, 0x33, 0x44, 0x59, 0x4b] = .ok (.encPing (some ⟨0x11, 0x22, 0x33, 0x44⟩) [0x48, 0x69]) []
      ∧ decodeEncoderFrame [0x8a, 0x02, 0x48, 0x69] = .ok (.encPong none [0x48, 0x69]) [] := by decide
/-- Rejected by name: short input, V38, and frames no ENC row has. -/
theorem test_decode_rejections :
    decodeFrame [0x81] = .short ∧ decodeFrame [0x81, 0x85, 1, 2, 3] = .short
      ∧ decodeFrame [0x82, 0x7e, 0x00, 0x7d] = .nonMinimalLength
      ∧ decodeFrame [0x82, 0x7f, 0, 0, 0, 0, 0, 0, 0xff, 0xff] = .nonMinimalLength
      ∧ decodeEncoderFrame [0x01, 0x00] = .noEncoderRow ∧ decodeEncoderFrame [0xc1, 0x00] = .noEncoderRow := by decide
/-- V5, V14: the first lengths of the medium and of the large class. -/
theorem test_length_classes :
    lenEncode 125 = ⟨125, []⟩ ∧ lenEncode 126 = ⟨126, [0x00, 0x7e]⟩ ∧ lenEncode 65535 = ⟨126, [0xff, 0xff]⟩
      ∧ lenEncode 65536 = ⟨127, [0, 0, 0, 0, 0, 1, 0, 0]⟩ := by decide
/-- V15. -/
theorem test_length_decode :
    lenDecode 126 [0x00, 0x7d] = .nonMinimal ∧ lenDecode 126 [0x01, 0x00] = .ok 256
      ∧ lenDecode 127 [0x80, 0, 0, 0, 0, 0, 0, 0] = .ok 9223372036854775808 := by decide
/-- V12. -/
theorem test_mask :
    mask [1, 2, 3, 4, 5, 6, 7, 8, 9] ⟨0xa1, 0xb2, 0xc3, 0xd4⟩ = [0xa0, 0xb0, 0xc0, 0xd0, 0xa4, 0xb4, 0xc4, 0xdc, 0xa8]
      ∧ mask hello key1 = helloMasked := by decide

/-! ### The table's words -/

theorem test_table_words :
    decodeTableWord 16 0x8305 = some (.rsvd3 ⟨true, 0, none, [0, 0, 0, 0, 0]⟩)
      ∧ decodeTableWord 16 0x0181 = some (.text ⟨false, 0, some ⟨0, 0, 0, 0⟩, [0]⟩)
      ∧ decodeTableWord 16 0x8900 = some (.encPing none []) ∧ decodeTableWord 16 0x0000 = some (.encCont none [])
      ∧ decodeTableWord 16 0xf000 = some (.cont ⟨true, 7, none, []⟩) ∧ decodeTableWord 16 0x827e = none := by decide
theorem test_fetch_word_received :
    returned (step (State.reset.withFetchWord 16 0xc900)) = some [.event (.ping [])] := by decide
theorem test_fetch_word_emitted :
    returned (step (State.reset.withFetchWord 16 0x8880)) = some [.frame [0x88, 0x80, 0, 0, 0, 0]] := by decide

/-! ### One step per row and operation -/

/-- V7 step 1 in short: a continuation without FIN is accumulated. -/
theorem test_cont_accumulates :
    after (fun s => (s.dec.acc, s.dec.msgType, s.outputs)) (fed [0x00, 0x01, 0x41]) = some (some [0x41], .none, []) := by decide
/-- V29: FIN without a typed frame. -/
theorem test_cont_untyped : returned (fed [0x80, 0x02, 0xff, 0xfe]) = some [.event (.message .none [0xff, 0xfe])] := by decide
/-- V2. -/
theorem test_text_masked :
    after (fun s => (s.outputs, s.dec.offset)) (fed (0x81 :: 0x85 :: keyBytes key1 ++ helloMasked))
      = some ([.event (.message .text hello)], 11) := by decide
/-- V11. -/
theorem test_text_invalid :
    after (fun s => (s.outputs, statusWord s.dec)) (fed [0x81, 0x02, 0xc3, 0x28])
      = some ([.event (.error .invalidUtf8Text 0 4)], 0x01bc) := by decide
/-- V30: the last typed frame gives the type. -/
theorem test_binary_after_text :
    returned (exec (.binary ⟨true, 0, none, [0xfe]⟩) (accumulating .text [0xff])) = some [.event (.message .binary [0xff, 0xfe])] := by
  decide
/-- V10, with the status word. -/
theorem test_rsvd3 :
    after (fun s => (s.outputs, statusWord s.dec)) (fed (0x83 :: 0x05 :: hello))
      = some ([.event (.error .unknownOpcode 0 7)], 0x001c) := by decide
/-- V37. -/
theorem test_rsvd4to7 : returned (fed [0x85, 0x00]) = some [.event (.error .unknownOpcode 0 2)] := by decide
theorem test_rsvd11 : returned (fed [0x0b, 0x00]) = some [.event (.error .unknownOpcode 0 2)] := by decide
theorem test_rsvd12to15 : returned (fed [0x8e, 0x00]) = some [.event (.error .unknownOpcode 0 2)] := by decide
set_option maxRecDepth 4000 in
/-- V33. -/
theorem test_close : returned (fed [0x88, 0x04, 0x03, 0xef, 0xff, 0xfe]) = some [.event (.close .dataNotConsistent [0xff, 0xfe])] := by decide
theorem test_close_one_byte : returned (fed [0x88, 0x01, 0x03]) = some [.event (.close .noStatus [])] := by decide
/-- V3; V39. -/
theorem test_ping : returned (fed (0x89 :: 0x05 :: hello)) = some [.event (.ping hello)] := by decide
theorem test_ping_fragmented :
    after (fun s => (s.outputs, statusWord s.dec)) (fed [0x09, 0x00])
      = some ([.event (.error .fragmentedControlFrame 0 2)], 0x004c) := by decide
/-- V39; R219. -/
theorem test_pong : returned (fed (0x8a :: 0x05 :: hello)) = some [.event (.pong hello)] := by decide
/-- V40: the length error comes before the opcode. -/
theorem test_length_error_first :
    after (fun s => (s.outputs, statusWord s.dec)) (fed [0x83, 0x7e, 0x00, 0x05])
      = some ([.event (.error .nonMinimalLengthEncoding 0 4)], 0x0029) := by decide
/-- V41: a good frame, an error, the rest discarded. -/
theorem test_error_mid_chunk :
    after (fun s => (s.outputs, s.dec.offset, s.dec.frameStart, s.dec.inbuf))
        (fed [0x81, 0x02, 0x48, 0x69, 0x83, 0x00, 0x81, 0x02, 0x48, 0x69])
      = some ([.event (.message .text [0x48, 0x69]), .event (.error .unknownOpcode 4 6)], 6, 4, []) := by decide
/-- V26: bit 63 of a length is a value bit; the decoder waits. -/
theorem test_length_bit_63 :
    after (fun s => (s.dec.payloadLength, s.dec.offset, s.dec.inbuf.length, s.dec.phase))
        (fed [0x82, 0x7f, 0x80, 0, 0, 0, 0, 0, 0, 0, 0xaa, 0xbb])
      = some (some 9223372036854775808, 10, 2, .payload) := by decide
/-- V34, rows at the edges of the table. -/
theorem test_utf8 :
    utf8Wf [0xed, 0x9f, 0xbf, 0xee, 0x80, 0x80, 0xf4, 0x8f, 0xbf, 0xbf, 0x41] = true ∧ utf8Wf [0xed, 0xa0, 0x80] = false
      ∧ utf8Wf [0xe0, 0x9f, 0xbf] = false ∧ utf8Wf [0xf4, 0x90, 0x80, 0x80] = false ∧ utf8Wf [0xc1, 0xbf] = false
      ∧ utf8Wf [0xf0, 0x9f, 0x98] = false := by decide
/-- V43. -/
theorem test_dec_reset : after (fun s => s.dec) (step { killed with pending := [.decReset] }) = some DecState.reset := by decide
/-- V42: an accumulation of type TEXT. -/
theorem test_dec_status : returned (runOp .decStatus (accumulating .text [0xff])) = some [.status 0x0180] := by decide

/-- V16. -/
theorem test_enc_cont :
    returned (exec (.encCont (some ⟨0x11, 0x22, 0x33, 0x44⟩) [0x48, 0x69]) State.reset)
      = some [.frame [0x00, 0x82, 0x11, 0x22, 0x33, 0x44, 0x59, 0x4b]] := by decide
/-- V4. -/
theorem test_enc_text :
    returned (exec (.encText (some key1) hello) State.reset) = some [.frame (0x81 :: 0x85 :: keyBytes key1 ++ helloMasked)] := by
  decide
/-- V16. -/
theorem test_enc_binary : returned (exec (.encBinary none [0x48, 0x69]) State.reset) = some [.frame [0x82, 0x02, 0x48, 0x69]] := by decide
theorem test_enc_ping : returned (exec (.encPing none []) State.reset) = some [.frame [0x89, 0x00]] := by decide
theorem test_enc_pong : returned (exec (.encPong none [0x48, 0x69]) State.reset) = some [.frame [0x8a, 0x02, 0x48, 0x69]] := by decide
/-- V17. -/
theorem test_enc_close :
    returned (exec (.encClose (some ⟨1, 2, 3, 4⟩) [] (some 1001) (some bye)) State.reset)
      = some [.frame [0x88, 0x85, 1, 2, 3, 4, 0x02, 0xeb, 0x41, 0x7d, 0x64]] := by decide
theorem test_enc_close_violation :
    after (fun s => (s.enc, s.outputs)) (exec (.encClose none [] none (some bye)) (holding .ping [1]))
      = some (⟨true, .ping, [1], false, none⟩, [.contractViolation]) := by decide
/-- V19. -/
theorem test_enc_mask :
    after (fun s => s.enc) (runOp (.encMask key1) (holding .text hello)) = some ⟨true, .text, helloMasked, true, some key1⟩ := by decide
theorem test_enc_refusals :
    refusal (runOp .encEmit State.reset) = some .noMessage ∧ refusal (runOp (.encMask key1) State.reset) = some .noMessage := by
  decide
/-- V13: the index wraps. -/
theorem test_xor_byte :
    after (fun s => (s.outputs, s.xm.idx)) (runOp (.xmXorByte 4) { State.reset with xm := ⟨some ⟨0xa1, 0xb2, 0xc3, 0xd4⟩, 3⟩ })
      = some ([.xorByte 0xd0], 0) := by decide

/-! ### Witnesses: the hypotheses of each obligation are met -/

theorem inv_pending (ops : List HostOp) : Inv { State.reset with pending := ops } :=
  ⟨⟨Nat.le_refl _, fun _ => rfl, fun _ => ⟨rfl, rfl, rfl, rfl, rfl, rfl, Nat.zero_le _⟩, nofun⟩, nofun⟩

theorem witness_StepKeepsInvariant : Inv (pend (.decFeed [0x81])) ∧ ∃ t, step (pend (.decFeed [0x81])) = .next t :=
  ⟨inv_pending _, _, rfl⟩
theorem witness_StepNeverFaultsUnderInvariant : Inv (pend .encEmit) := inv_pending _
theorem witness_FeedIsTotalWithoutLimits : Inv (pend .decStatus) ∧ (pend .decStatus).cfg = ⟨none, none⟩ :=
  ⟨inv_pending _, rfl⟩
theorem witness_DecodeOfEncodeReceivedFrame :
    (Instr.rsvd12to15 2 ⟨true, 5, some key1, hello⟩).isEncoder = false
      ∧ (Instr.rsvd12to15 2 ⟨true, 5, some key1, hello⟩).wellFormed = true := by decide
theorem witness_DecodeOfEncodeEmittedFrame :
    (Instr.encClose (some key1) [] (some 1001) (some bye)).isEncoder = true
      ∧ (Instr.encClose (some key1) [] (some 1001) (some bye)).wellFormed = true := by decide
theorem witness_AcceptedBytesAreTheEncoding :
    decodeFrame [0x8a, 0x01, 5, 9] = .ok (.pong ⟨true, 0, none, [5]⟩) [9] := by decide
theorem witness_EveryHeaderWordHasOneReceivedRow : (⟨0x0c00, 0x0c00⟩ : HeaderRow) ∈ decRows := by decide
theorem witness_EncodedFrameHasTheSixFormats :
    ∀ n ∈ [0, 125, 126, 65535, 65536], ∃ p : Bytes, p.length = n ∧ p.length < 2 ^ 64 := by
  intro n hn
  refine ⟨List.replicate n 0, List.length_replicate, ?_⟩
  rw [List.length_replicate]
  revert n
  decide
theorem witness_StreamingMaskOperations :
    ({ State.reset with xm := ⟨some key1, 3⟩ } : State).xm.key = some key1 ∧ State.reset.xm.key = none := ⟨rfl, rfl⟩
theorem witness_LengthClassesPartition :
    (125#64).toNat < 126 ∧ (126 ≤ (126#64).toNat ∧ (126#64).toNat ≤ 65535) ∧ (126 ≤ (65535#64).toNat ∧ (65535#64).toNat ≤ 65535)
      ∧ 65535 < (65536#64).toNat := by decide
theorem witness_LengthCodecRoundTrip :
    ([0x00, 0x7e] : Bytes).length = extSize 126 ∧ lenDecode 126 [0x00, 0x7e] = .ok 126 := by decide
theorem at_frame_start (ops : List HostOp) : AtFrameStart ({ State.reset with pending := ops } : State).dec :=
  ⟨rfl, rfl, rfl, rfl, rfl, rfl, rfl, rfl⟩
theorem witness_StepRunsTheReceivedFrame :
    AtFrameStart (pend (.decFeed [0x83, 0x00])).dec ∧ (pend (.decFeed [0x83, 0x00])).pending = [.decFeed [0x83, 0x00]]
      ∧ decodeFrame [0x83, 0x00] = .ok (.rsvd3 ⟨true, 0, none, []⟩) [] ∧ frameOf (.rsvd3 ⟨true, 0, none, []⟩) = some ⟨true, 0, none, []⟩
      ∧ allowsFrame (pend (.decFeed [0x83, 0x00])).cfg 0 = true := ⟨at_frame_start _, rfl, by decide, rfl, rfl⟩
theorem witness_StepRunsTheEmittedFrame :
    (pend (.encFrame (.encPing none []))).pending = [.encFrame (.encPing none [])] ∧ (Instr.encPing none []).isEncoder = true
      ∧ (pend (.encFrame (.ping ⟨true, 0, none, []⟩))).pending = [.encFrame (.ping ⟨true, 0, none, []⟩)]
      ∧ (Instr.ping ⟨true, 0, none, []⟩).isEncoder = false ∧ State.reset.pending = [] := ⟨rfl, rfl, rfl, rfl, rfl⟩
theorem witness_FeedIteratesTheFrameDecoder :
    AtFrameStart State.reset.dec ∧ decodeFrame [0x00, 0x01, 0x41, 0x8a, 0x00] = .ok (.cont ⟨false, 0, none, [0x41]⟩) [0x8a, 0x00]
      ∧ frameOf (.cont ⟨false, 0, none, [0x41]⟩) = some ⟨false, 0, none, [0x41]⟩ ∧ allowsFrame State.reset.cfg 1 = true :=
  ⟨at_frame_start [], by decide, rfl, rfl⟩
theorem witness_ByteSerialFeedIsTheSame : ([0x81, 0x00] : Bytes) ≠ [] := by decide
theorem witness_EmptyFeedChangesNothing : Inv State.reset := inv_pending []
theorem witness_PhaseUnitsAreAllOrNothing :
    (State.reset.dec.dead = false ∧ phaseUnit State.reset.dec = some 2 ∧ State.reset.dec.inbuf.length + 1 < 2)
      ∧ (buffer [0x81, 0x05] State.reset).dec.dead = false ∧ phaseUnit (buffer [0x81, 0x05] State.reset).dec = some 2
      ∧ 2 ≤ (buffer [0x81, 0x05] State.reset).dec.inbuf.length ∧ ∃ t, phaseStep (buffer [0x81, 0x05] State.reset) = .next t :=
  ⟨⟨rfl, rfl, by decide⟩, rfl, rfl, by decide, _, rfl⟩
theorem witness_EveryByteIsConsumedOrBuffered :
    State.reset.dec.dead = false ∧ ∃ t, runOp (.decFeed [0x81, 0x05, 0x48]) State.reset = .next t := ⟨rfl, _, rfl⟩

/-- A decoder in a later phase of a medium-length frame, with bytes buffered. -/
def inPhase (p : Phase) (second : Byte) (inbuf : Bytes) : State :=
  { State.reset with dec := { DecState.reset with
      phase := p, inbuf := inbuf, firstByte := some 0x82, secondByte := some second, payloadLength := some 126,
      maskKey := some key1, offset := 8 } }

theorem witness_PayloadLengthStepResolvesOrRaises :
    (inPhase .payloadLength 0xfe [0x00, 0x7e]).dec.phase = .payloadLength
      ∧ (inPhase .payloadLength 0xfe [0x00, 0x7e]).dec.secondByte = some 0xfe ∧ 2 = extSize (len7Of 0xfe)
      ∧ lenDecode (len7Of 0xfe) ((inPhase .payloadLength 0xfe [0x00, 0x7e]).dec.inbuf.take 2) = .ok 126
      ∧ allowsFrame (inPhase .payloadLength 0xfe [0x00, 0x7e]).cfg 126 = true
      ∧ lenDecode (len7Of 0xfe) ((inPhase .payloadLength 0xfe [0x00, 0x7d]).dec.inbuf.take 2) = .nonMinimal := by decide
theorem witness_MaskAndPayloadStepsConsumeTheirUnit :
    ((inPhase .mask 0xfe [1, 2, 3, 4]).dec.phase = .mask ∧ (inPhase .mask 0xfe [1, 2, 3, 4]).dec.inbuf = [1, 2, 3, 4])
      ∧ ∀ second ∈ [(0xfe : Byte), 0x7e],
        (inPhase .payload second (List.replicate 126 0 ++ [])).dec.phase = .payload
          ∧ (inPhase .payload second (List.replicate 126 0 ++ [])).dec.secondByte = some second
          ∧ (inPhase .payload second (List.replicate 126 0 ++ [])).dec.payloadLength = some 126
          ∧ (inPhase .payload second (List.replicate 126 0 ++ [])).dec.inbuf = List.replicate 126 0 ++ []
          ∧ (List.replicate 126 (0 : Byte)).length = (126#64).toNat
          ∧ (inPhase .payload second (List.replicate 126 0 ++ [])).dec.maskKey = some key1 :=
  ⟨⟨rfl, rfl⟩, fun _ _ => ⟨rfl, rfl, rfl, rfl, by simp, rfl⟩⟩
/-- The mask bits of the two second bytes above. -/
theorem witness_mask_bit : maskedOf 0xfe = true ∧ maskedOf 0x7e = false := by decide
theorem witness_NonMinimalLengthKillsAtTheLengthField :
    AtFrameStart State.reset.dec
      ∧ (len7Of 0xfe = 126 ∧ ([0x00, 0x7d] : Bytes).length = 2 ∧ fromBe [0x00, 0x7d] ≤ 125)
      ∧ (len7Of 0x7f = 127 ∧ ([0, 0, 0, 0, 0, 0, 0xff, 0xff] : Bytes).length = 8 ∧ fromBe [0, 0, 0, 0, 0, 0, 0xff, 0xff] ≤ 65535) :=
  ⟨at_frame_start [], by decide, by decide⟩

/-- Reset with both size limits configured. -/
def limited (m : Nat) : State := { State.reset with cfg := ⟨some m, some m⟩ }

theorem witness_FrameAboveConfiguredLimitIsRefused :
    AtFrameStart (limited 4).dec ∧ ([] : Bytes).length = extSize (len7Of 0x05) ∧ lenDecode (len7Of 0x05) [] = .ok 5
      ∧ (limited 4).cfg.maxFramePayload = some 4 ∧ 4 < (5#64).toNat := ⟨at_frame_start [], by decide⟩
/-- For ContRowAppendsAndDelivers, TextRowValidatesAndDelivers and BinaryRowDeliversUnvalidated. -/
theorem witness_data_rows :
    (accumulating .text [0xc3]).dec.dead = false
      ∧ allowsMessage (accumulating .text [0xc3]).cfg ((accumulating .text [0xc3]).dec.acc.getD [] ++ [0xa9]).length = true := by
  decide
theorem witness_MessageAboveConfiguredLimitIsRefused :
    (limited 4).dec.dead = false ∧ (limited 4).cfg.maxMessageBytes = some 4
      ∧ 4 < ((limited 4).dec.acc.getD []).length + hello.length := by decide
theorem witness_PingAndPongRowsDeliverAtOnce : State.reset.dec.dead = false := rfl
theorem witness_CloseRowReportsStatusAndReason :
    State.reset.dec.dead = false ∧ (⟨true, 0, none, [3, 0xe9]⟩ : Frame).fin = true
      ∧ (⟨true, 0, none, [3, 0xe9]⟩ : Frame).payload = 3 :: 0xe9 :: [] ∧ (⟨true, 0, none, [3]⟩ : Frame).fin = true
      ∧ (⟨true, 0, none, [3]⟩ : Frame).payload.length < 2 := by decide
theorem witness_FragmentedControlFrameKills :
    State.reset.dec.dead = false ∧ (⟨false, 0, none, [1]⟩ : Frame).fin = false := ⟨rfl, rfl⟩
theorem witness_ReservedOpcodeKills :
    State.reset.dec.dead = false ∧ AtFrameStart State.reset.dec ∧ (Instr.rsvd4to7 1 ⟨false, 1, some key1, hello⟩).wellFormed = true
      ∧ allowsFrame State.reset.cfg hello.length = true := ⟨rfl, at_frame_start [], by decide, rfl⟩
theorem witness_DeadDecoderDiscardsEverything : killed.dec.dead = true := rfl
/-- A row that kills, one that does not, and one on a dead decoder. -/
theorem witness_ReceivedRowsChangeOnlyTheMessage :
    (Instr.text ⟨true, 0, none, [0xff]⟩).isEncoder = false
      ∧ (State.reset.dec.dead = false ∧ ∃ t, exec (.text ⟨true, 0, none, [0xff]⟩) State.reset = .next t ∧ t.dec.dead = true)
      ∧ (∃ t, exec (.text ⟨true, 0, none, [0x41]⟩) State.reset = .next t ∧ t.dec.dead = State.reset.dec.dead)
      ∧ killed.dec.dead = true ∧ ∃ t, exec (.text ⟨true, 0, none, [0xff]⟩) killed = .next t :=
  ⟨rfl, ⟨rfl, _, rfl, rfl⟩, ⟨_, rfl, rfl⟩, rfl, _, rfl⟩

/-- A control frame with FIN, a continuation without, a close. -/
def pieces : List Instr := [.ping ⟨true, 0, none, [0x78]⟩, .cont ⟨false, 0, none, [0x74]⟩, .close ⟨true, 0, none, []⟩]

/-- The frame that begins and the frame that ends a message, each order's data, and a text that is not UTF-8. -/
theorem witness_FragmentsReassembleAcrossControlFrames :
    (accumulating .text [0x49]).dec.dead = false ∧ (accumulating .text [0x49]).cfg.maxMessageBytes = none
      ∧ (⟨false, 0, none, [0x48]⟩ : Frame).fin = false ∧ (⟨true, 0, none, [0x21]⟩ : Frame).fin = true
      ∧ (∀ i ∈ pieces, IsPiece i)
      ∧ (accumulating .text [0x49]).dec.msgType = .text
      ∧ [0x49, 0x74, 0x21] = (accumulating .text [0x49]).dec.acc.getD [] ++ (pieces.filterMap pieceData).flatten ++ [0x21]
      ∧ [0x48, 0x74, 0x21] = State.reset.dec.acc.getD [] ++ [0x48] ++ (pieces.filterMap pieceData).flatten ++ [0x21]
      ∧ utf8Wf [0x49, 0x74, 0x21] = true ∧ utf8Wf [0x48, 0x74, 0x21] = true
      ∧ [0x49, 0x74, 0xff] = (accumulating .text [0x49]).dec.acc.getD [] ++ (pieces.filterMap pieceData).flatten ++ [0xff]
      ∧ utf8Wf [0x49, 0x74, 0xff] = false := by
  refine ⟨rfl, rfl, rfl, rfl, ?_, rfl, rfl, rfl, by decide, by decide, rfl, by decide⟩
  intro i h
  simp only [pieces, List.mem_cons, List.not_mem_nil, or_false] at h
  rcases h with rfl | rfl | rfl
  · exact ⟨_, .inr ⟨.inl rfl, rfl⟩⟩
  · exact ⟨_, .inl ⟨rfl, rfl⟩⟩
  · exact ⟨_, .inr ⟨.inr (.inr rfl), rfl⟩⟩
/-- For EncoderRowsEmitTheirEncoding, EncoderCloseRowPacksStatus and BuildsWriteTheWholeRegister. -/
theorem witness_encoder_operands :
    hello.length < 2 ^ 64 ∧ ((some bye).getD []).length + 2 < 2 ^ 64 ∧ ((none : Option Bytes).getD []).length + 2 < 2 ^ 64 := by decide
theorem witness_OversizedPayloadIsRefused :
    2 ^ 64 ≤ (List.replicate (2 ^ 64) (0 : Byte)).length ∧ 2 ^ 64 ≤ (List.replicate (2 ^ 64 - 2) (0 : Byte)).length + 2 := by
  rw [List.length_replicate, List.length_replicate]
  decide
theorem witness_MaskHappensExactlyOnce :
    ((holding .text hello).enc.mValid = true ∧ (holding .text hello).enc.mMasked = false) ∧ State.reset.enc.mValid = false
      ∧ ({ State.reset with enc := ⟨true, .text, helloMasked, true, some key1⟩ } : State).enc.mMasked = true := by decide
theorem witness_EmitWritesNothingAndRepeats :
    EncInv (holding .text hello).enc ∧ (holding .text hello).enc.mValid = true ∧ EncInv State.reset.enc
      ∧ State.reset.enc.mValid = false := ⟨fun _ => ⟨rfl, by decide⟩, rfl, nofun, rfl⟩
/-- For EncodedMessageRoundTrips and EncodedContinuationAccumulates, with the operands of `witness_encoder_operands`. -/
theorem witness_round_trips :
    AtFrameStart State.reset.dec ∧ State.reset.dec.acc = none ∧ State.reset.cfg = ⟨none, none⟩ ∧ utf8Wf hello = true
      ∧ utf8Wf [0xc0, 0xaf] = false := ⟨at_frame_start [], rfl, rfl, by decide, by decide⟩
/-- Its clauses at a close with a status, and at payloads of no, one, two and three bytes; the two clauses without a status
meet at no length. -/
theorem witness_EncodedCloseRoundTrips :
    AtFrameStart State.reset.dec ∧ State.reset.cfg = ⟨none, none⟩ ∧ ((some bye).getD []).length + 2 < 2 ^ 64
      ∧ ((none : Option Bytes).getD []).length + 2 < 2 ^ 64
      ∧ (([] : Bytes).length < 2 ∧ ([] : Bytes).length < 2 ^ 64) ∧ (([3] : Bytes).length < 2 ∧ ([3] : Bytes).length < 2 ^ 64)
      ∧ (([3, 0xe9] : Bytes) = 3 :: 0xe9 :: [] ∧ ([3, 0xe9] : Bytes).length < 2 ^ 64)
      ∧ (([3, 0xe9, 0x42] : Bytes) = 3 :: 0xe9 :: [0x42] ∧ ([3, 0xe9, 0x42] : Bytes).length < 2 ^ 64)
      ∧ ∀ (a b : Byte) (r : Bytes), ¬ (a :: b :: r).length < 2 :=
  ⟨at_frame_start [], rfl, by decide, by decide, by decide, by decide, by decide, by decide, fun a b r => by simp⟩
/-- A one-byte close payload is emitted as it is; `test_close_one_byte` feeds these bytes back (D10). -/
theorem test_one_byte_close_emitted :
    returned (exec (.encClose none [3] none none) State.reset) = some [.frame [0x88, 0x01, 3]] := by decide
theorem witness_StatusTableIsClosed :
    ∀ c ∈ [0, 999, 1004, 1006, 1012, 65535], c ∉ [1000, 1001, 1002, 1003, 1007, 1008, 1009, 1010, 1011] := by decide
theorem witness_OnlyResetLeavesTheDeadState :
    ({ killed with pending := [.decReset] } : State).dec.dead = true ∧ (∃ t, step { killed with pending := [.decReset] } = .next t)
      ∧ ∃ t, step { killed with pending := [.decFeed [0x81]] } = .next t := ⟨rfl, ⟨_, rfl⟩, _, rfl⟩
/-- For ErrorIsReportedOnceByTheStepThatKills and OutputsOnlyGrowInOrder. -/
theorem witness_steps :
    (∃ t, fed [0x83, 0x00] = .next t ∧ t.dec.dead = true) ∧ ∃ t, fed [0x8a, 0x00] = .next t ∧ t.dec.dead = false :=
  ⟨⟨_, rfl, rfl⟩, _, rfl, rfl⟩
theorem witness_UnitsShareNoMutableState :
    (∃ t, runOp (.decFeed [0x81]) State.reset = .next t) ∧ (∃ t, runOp (.encBuildPing []) State.reset = .next t)
      ∧ ∃ t, runOp (.xmLoadKey key1) State.reset = .next t := ⟨⟨_, rfl⟩, ⟨_, rfl⟩, _, rfl⟩
theorem witness_DecAndEncOperationsCommute :
    isDecOp (.decFeed [0x8a, 0x00]) = true ∧ isEncOp (.encBuildPong hello) = true
      ∧ ∃ u v, runOp (.decFeed [0x8a, 0x00]) State.reset = .next u ∧ runOp (.encBuildPong hello) u = .next v :=
  ⟨rfl, rfl, _, _, rfl, rfl⟩

end Sys2Proof.Tests
end

section
/-! The family 20_memory.md: each phase consumes its whole unit or nothing (R66). -/

namespace Sys2Proof.Machine

/-- A phase that consumes input is ready exactly when its unit is buffered. -/
theorem phaseReady_iff_unit_buffered {d : DecState} {n : Nat} (h : phaseUnit d = some n) :
    phaseReady d = true ↔ n ≤ d.inbuf.length := by
  unfold phaseUnit at h
  unfold phaseReady
  cases hp : d.phase with
  | header | mask =>
    simp only [hp, Option.some.injEq] at h
    subst h
    simp
  | payloadLength =>
    simp only [hp, Option.map_eq_some_iff] at h
    obtain ⟨b, hb, rfl⟩ := h
    simp [hb]
  | payload =>
    simp only [hp, Option.map_eq_some_iff] at h
    obtain ⟨len, hlen, rfl⟩ := h
    simp [hlen]
  | complete => simp [hp] at h

/-- Buffering a chunk that leaves the unit incomplete enables no step. -/
theorem buffer_disabled_of_short {s : State} {chunk : Bytes} {n : Nat} (h : phaseUnit s.dec = some n)
    (hshort : s.dec.inbuf.length + chunk.length < n) : enabled (buffer chunk s).dec = false := by
  have hunit : phaseUnit (buffer chunk s).dec = some n := h
  have hlen : (buffer chunk s).dec.inbuf.length = s.dec.inbuf.length + chunk.length := List.length_append
  rw [Bool.eq_false_iff, ne_eq, enabled_iff, phaseReady_iff_unit_buffered hunit]
  omega

/-- `t` lies `n` input bytes after `s`: they are counted, and what follows them stays buffered, unless the decoder is dead
and its input discarded (60_exceptions.md R256). -/
def TakesBytes (n : Nat) (s t : State) : Prop :=
  t.dec.offset = s.dec.offset + n ∧ (t.dec.dead = false → t.dec.inbuf = s.dec.inbuf.drop n)

/-- The payload-length step consumes the extended bytes, also when it raises (43_decoder_phases.md R182). -/
theorem lengthStep_takesBytes {s t : State} {b : Byte} (hb : s.dec.secondByte = some b) (h : lengthStep s = .next t) :
    TakesBytes (extSize (len7Of b)) s t := by
  obtain ⟨b', hb', hcases⟩ := lengthStep_cases h
  obtain rfl : b = b' := Option.some.inj (hb.symm.trans hb')
  rcases hcases with ⟨_, rfl⟩ | ⟨len, _, _, rfl⟩
  · exact ⟨rfl, nofun⟩
  · exact ⟨rfl, fun _ => rfl⟩

/-- The payload step consumes `payload_length` bytes, masked or not (43_decoder_phases.md R184). -/
theorem payloadStep_takesBytes {s t : State} {len : BitVec 64} (hlen : s.dec.payloadLength = some len)
    (h : payloadStep s = .next t) : TakesBytes len.toNat s t := by
  obtain ⟨len', b, hlen', _, hcases⟩ := payloadStep_cases h
  obtain rfl : len = len' := Option.some.inj (hlen.symm.trans hlen')
  rcases hcases with ⟨_, rfl⟩ | ⟨k, _, _, rfl⟩ <;> exact ⟨rfl, fun _ => rfl⟩

/-- A phase step consumes exactly its unit. -/
theorem phaseStep_takes_unit {s t : State} {n : Nat} (h : phaseUnit s.dec = some n) (hs : phaseStep s = .next t) :
    TakesBytes n s t := by
  unfold phaseUnit at h
  unfold phaseStep at hs
  cases hp : s.dec.phase with
  | header | mask =>
    simp only [hp, Option.some.injEq, Host.Outcome.next.injEq] at h hs
    subst h hs
    exact ⟨rfl, fun _ => rfl⟩
  | payloadLength =>
    simp only [hp, Option.map_eq_some_iff] at h hs
    obtain ⟨b, hb, rfl⟩ := h
    exact lengthStep_takesBytes hb hs
  | payload =>
    simp only [hp, Option.map_eq_some_iff] at h hs
    obtain ⟨len, hlen, rfl⟩ := h
    exact payloadStep_takesBytes hlen hs
  | complete => simp [hp] at h

/-- Settles O24: short of the unit no step is enabled, so FEED stops after buffering; and a phase step that answers a next
state consumes the unit. -/
theorem phaseUnitsAreAllOrNothing : Obligations.PhaseUnitsAreAllOrNothing := by
  refine ⟨fun s chunk n hlive hunit hshort => ?_, fun s t n _ hunit _ hs => phaseStep_takes_unit hunit hs⟩
  calc feed chunk s = advanceAll (buffer chunk s) := feed_live hlive
    _ = .next (buffer chunk s) := advanceAll_disabled (buffer_disabled_of_short hunit hshort)

end Sys2Proof.Machine
end

section
/-! The family 40_masking.md: the masking transform, byte by byte (R130). -/

namespace Sys2Proof.Machine

/-- `keyByte` is the byte of the wire-order key at the index mod 4 (20_memory.md R61). -/
theorem keyByte_eq_getD (k : Key) (i : Nat) : keyByte k i = (keyBytes k).getD (i % 4) 0 := by
  unfold keyByte
  have hlt : i % 4 < 4 := Nat.mod_lt i (by decide)
  match i % 4, hlt with
  | 0, _ | 1, _ | 2, _ | 3, _ => rfl

/-- The byte at `i` is masked with the key byte `i` places after the start index. -/
theorem maskFrom_getElem? (k : Key) (start : Nat) (data : Bytes) (i : Nat) :
    (maskFrom k start data)[i]? = data[i]?.map (· ^^^ keyByte k (start + i)) := by
  induction data generalizing start i with
  | nil => rfl
  | cons b data ih =>
    cases i with
    | zero => rfl
    | succ i =>
      calc (maskFrom k start (b :: data))[i + 1]? = (maskFrom k (start + 1) data)[i]? := rfl
        _ = data[i]?.map (· ^^^ keyByte k (start + 1 + i)) := ih (start + 1) i
        _ = (b :: data)[i + 1]?.map (· ^^^ keyByte k (start + (i + 1))) := by
          rw [Nat.add_right_comm, Nat.add_assoc, List.getElem?_cons_succ]

theorem mask_getElem? (data : Bytes) (k : Key) (i : Nat) :
    (mask data k)[i]? = data[i]?.map (· ^^^ keyByte k i) := by
  simpa [mask] using maskFrom_getElem? k 0 data i

/-- Settles O12: the length is `mask_length`, the bytes are `mask_getElem?` with the key byte read off the wire order. -/
theorem maskXorsByteByByte : Obligations.MaskXorsByteByByte := by
  refine fun data k => ⟨mask_length data k, fun i => ?_⟩
  rw [mask_getElem?, keyByte_eq_getD, keyBytes]

end Sys2Proof.Machine
end

section
/-! The family 41_length_codec.md: the length encoding, class by class (R140, R141). -/

namespace Sys2Proof.Machine

theorem lenEncode_small {len : BitVec 64} (h : len.toNat < 126) : lenEncode len = ⟨len.setWidth 7, []⟩ := if_pos h

theorem lenEncode_medium {len : BitVec 64} (hlo : 126 ≤ len.toNat) (hhi : len.toNat ≤ 65535) :
    lenEncode len = ⟨126, be16 (len.setWidth 16)⟩ :=
  (if_neg (Nat.not_lt.mpr hlo)).trans (if_pos hhi)

theorem lenEncode_large {len : BitVec 64} (h : 65535 < len.toNat) : lenEncode len = ⟨127, be64 len⟩ := by
  have hnotSmall : ¬ len.toNat < 126 := by omega
  exact (if_neg hnotSmall).trans (if_neg (Nat.not_le.mpr h))

/-- Settles O16: each class is its equation of `lenEncode`; the small and the medium length survive the cut to 7 and
16 bits, and the extended field is big-endian. -/
theorem lengthClassesPartition : Obligations.LengthClassesPartition := by
  refine fun len => ⟨fun hsmall => ?_, fun hlo hhi => ?_, fun hlarge => ?_⟩
  · rw [lenEncode_small hsmall]
    exact ⟨(BitVec.toNat_setWidth 7 len).trans (Nat.mod_eq_of_lt (by omega)), rfl⟩
  · rw [lenEncode_medium hlo hhi]
    refine ⟨rfl, be16_length _, ?_⟩
    calc fromBe (be16 (len.setWidth 16)) = (len.setWidth 16).toNat := fromBe_be16 _
      _ = len.toNat % 2 ^ 16 := BitVec.toNat_setWidth 16 len
      _ = len.toNat := Nat.mod_eq_of_lt (by omega)
  · rw [lenEncode_large hlarge]
    exact ⟨rfl, be64_length len, fromBe_be64 len⟩

end Sys2Proof.Machine
end

section
/-! The family 43_decoder_phases.md: the mask step and the payload step (R183, R184). -/

namespace Sys2Proof.Machine

/-- The step of a phase that consumes input is enabled exactly on a live decoder with the unit buffered. -/
theorem enabled_iff_live_and_unit_buffered {d : DecState} {n : Nat} (h : phaseUnit d = some n) :
    enabled d = true ↔ d.dead = false ∧ n ≤ d.inbuf.length := by
  rw [enabled_iff, phaseReady_iff_unit_buffered h]

theorem phaseUnit_mask {d : DecState} (h : d.phase = .mask) : phaseUnit d = some 4 := by
  simp [phaseUnit, h]

theorem phaseUnit_payload {d : DecState} {len : BitVec 64} (h : d.phase = .payload)
    (hlen : d.payloadLength = some len) : phaseUnit d = some len.toNat := by
  simp [phaseUnit, h, hlen]

theorem phaseStep_mask {s : State} (h : s.dec.phase = .mask) : phaseStep s = .next (maskStep s) := by
  simp [phaseStep, h]

theorem phaseStep_payload {s : State} (h : s.dec.phase = .payload) : phaseStep s = payloadStep s := by
  simp [phaseStep, h]

/-- The first four buffered bytes become the key, in wire order. -/
theorem maskStep_of_cons {s : State} {a b c d : Byte} {rest : Bytes} (h : s.dec.inbuf = a :: b :: c :: d :: rest) :
    maskStep s = { s with dec := { s.dec with
      inbuf := rest, offset := s.dec.offset + 4, maskKey := some ⟨a, b, c, d⟩, phase := .payload } } := by
  simp [maskStep, consume, h, keyOfBytes]

/-- The first `n` buffered bytes become the payload, masked from index 0 under a key. -/
theorem takePayload_of_append {s : State} {n : Nat} {p rest : Bytes} (key : Option Key)
    (h : s.dec.inbuf = p ++ rest) (hn : p.length = n) :
    takePayload n key s = { s with dec := { s.dec with
      inbuf := rest, offset := s.dec.offset + n, payload := some (maskOpt p key), phase := .complete } } := by
  subst hn
  simp [takePayload, consume, h]

theorem payloadStep_unmasked {s : State} {second : Byte} {len : BitVec 64} (hlen : s.dec.payloadLength = some len)
    (hsecond : s.dec.secondByte = some second) (hbit : maskedOf second = false) :
    payloadStep s = .next (takePayload len.toNat none s) := by
  simp [payloadStep, hlen, hsecond, hbit]

theorem payloadStep_masked {s : State} {second : Byte} {len : BitVec 64} {k : Key}
    (hlen : s.dec.payloadLength = some len) (hsecond : s.dec.secondByte = some second)
    (hbit : maskedOf second = true) (hkey : s.dec.maskKey = some k) :
    payloadStep s = .next (takePayload len.toNat (some k) s) := by
  simp [payloadStep, hlen, hsecond, hbit, hkey]

/-- Settles O27: each step is enabled with its unit buffered; the mask step reads the key off the first four bytes, and the
mask bit decides which key, if any, the payload step applies. -/
theorem maskAndPayloadStepsConsumeTheirUnit : Obligations.MaskAndPayloadStepsConsumeTheirUnit := by
  refine ⟨fun s hphase => enabled_iff_live_and_unit_buffered (phaseUnit_mask hphase),
    fun s len hphase hlen => enabled_iff_live_and_unit_buffered (phaseUnit_payload hphase hlen),
    fun s a b c d rest hphase hbuf => ?_,
    fun s second len p rest hphase hsecond hlen hbuf hunit => ⟨fun hbit => ?_, fun k hbit hkey => ?_⟩⟩
  · rw [phaseStep_mask hphase, maskStep_of_cons hbuf]
  · rw [phaseStep_payload hphase, payloadStep_unmasked hlen hsecond hbit, takePayload_of_append none hbuf hunit, maskOpt]
  · rw [phaseStep_payload hphase, payloadStep_masked hlen hsecond hbit hkey, takePayload_of_append (some k) hbuf hunit,
      maskOpt, unmask]

end Sys2Proof.Machine
end

section
/-! The wire format (30_encoding.md): the length codec both ways (41_length_codec.md R145), and the one-shot parser as the
inverse of `frameBytes`. -/

namespace Sys2Proof.Machine

/-! ### Big-endian numbers -/

theorem fromBe_concat (s : Bytes) (b : Byte) : fromBe (s ++ [b]) = fromBe s * 256 + b.toNat := by
  simp [fromBe, List.foldl_append]

/-- Byte sequences of one length are determined by the number they spell. -/
theorem fromBe_inj {s t : Bytes} (hlen : s.length = t.length) (h : fromBe s = fromBe t) : s = t := by
  induction s using List.reverseRecOn generalizing t with
  | nil => exact (List.length_eq_zero_iff.mp hlen.symm).symm
  | append_singleton s b ih =>
    obtain rfl | ⟨t, c, rfl⟩ := t.eq_nil_or_concat'
    · simp at hlen
    · rw [fromBe_concat, fromBe_concat] at h
      have hb := b.isLt
      have hc := c.isLt
      have hs : s = t := ih (by simpa using hlen) (by omega)
      have hbc : b = c := BitVec.eq_of_toNat_eq (by omega)
      rw [hs, hbc]

/-! ### The length codec, round trip -/

theorem extSize_of_le {c : BitVec 7} (h : c.toNat ≤ 125) : extSize c = 0 := if_pos h

theorem lenDecode_small {c : BitVec 7} (e : Bytes) (h : c.toNat ≤ 125) : lenDecode c e = .ok (c.setWidth 64) := if_pos h

theorem lenDecode_medium (e : Bytes) :
    lenDecode 126 e = if fromBe e ≤ 125 then .nonMinimal else .ok (BitVec.ofNat 64 (fromBe e)) := rfl

theorem lenDecode_large (e : Bytes) :
    lenDecode 127 e = if fromBe e ≤ 65535 then .nonMinimal else .ok (BitVec.ofNat 64 (fromBe e)) := rfl

/-- A length code is the small length itself, or one of the two markers (R140). -/
theorem len7_cases (c : BitVec 7) : c.toNat ≤ 125 ∨ c = 126 ∨ c = 127 := by
  have hlt := c.isLt
  rcases Nat.lt_or_ge c.toNat 126 with h | h
  · exact .inl (by omega)
  · rcases Nat.lt_or_ge c.toNat 127 with h' | h'
    · exact .inr (.inl (BitVec.eq_of_toNat_eq (by simp; omega)))
    · exact .inr (.inr (BitVec.eq_of_toNat_eq (by simp; omega)))

theorem lenEncode_ext_length (len : BitVec 64) : (lenEncode len).ext.length = extSize (lenEncode len).len7 := by
  obtain ⟨hsmall, hmedium, hlarge⟩ := lengthClassesPartition len
  rcases Nat.lt_or_ge len.toNat 126 with h | h
  · obtain ⟨hlen7, hext⟩ := hsmall h
    rw [hext, extSize_of_le (by omega), List.length_nil]
  · rcases Nat.lt_or_ge 65535 len.toNat with h' | h'
    · obtain ⟨hlen7, hext, _⟩ := hlarge h'
      rw [hext, hlen7]; rfl
    · obtain ⟨hlen7, hext, _⟩ := hmedium h h'
      rw [hext, hlen7]; rfl

/-- Decoding the code of a length gives the length. -/
theorem lenDecode_lenEncode (len : BitVec 64) : lenDecode (lenEncode len).len7 (lenEncode len).ext = .ok len := by
  obtain ⟨hsmall, hmedium, hlarge⟩ := lengthClassesPartition len
  rcases Nat.lt_or_ge len.toNat 126 with h | h
  · obtain ⟨hlen7, _⟩ := hsmall h
    rw [lenDecode_small _ (by omega)]
    exact congrArg LenResult.ok (BitVec.eq_of_toNat_eq (by simp only [BitVec.toNat_setWidth]; omega))
  · rcases Nat.lt_or_ge 65535 len.toNat with h' | h'
    · obtain ⟨hlen7, _, hval⟩ := hlarge h'
      rw [hlen7, lenDecode_large, hval, if_neg (Nat.not_le.mpr h'), BitVec.ofNat_toNat, BitVec.setWidth_eq]
    · obtain ⟨hlen7, _, hval⟩ := hmedium h h'
      rw [hlen7, lenDecode_medium, hval, if_neg (by omega), BitVec.ofNat_toNat, BitVec.setWidth_eq]

/-- What an accepted extended field says, as a number. -/
theorem toNat_ofNat_fromBe {e : Bytes} {n : Nat} (h : e.length = n) (hn : n ≤ 8) :
    (BitVec.ofNat 64 (fromBe e)).toNat = fromBe e := by
  have hlt := fromBe_lt e
  have hpow : 256 ^ e.length ≤ 256 ^ 8 := Nat.pow_le_pow_right (by decide) (by omega)
  rw [BitVec.toNat_ofNat, Nat.mod_eq_of_lt]
  omega

/-- An accepted code is the one code of the length it stands for. -/
theorem lenEncode_of_lenDecode {c : BitVec 7} {e : Bytes} {len : BitVec 64} (hlen : e.length = extSize c)
    (h : lenDecode c e = .ok len) : lenEncode len = ⟨c, e⟩ := by
  rcases len7_cases c with hc | rfl | rfl
  · rw [lenDecode_small e hc] at h
    obtain rfl := LenResult.ok.inj h
    rw [extSize_of_le hc, List.length_eq_zero_iff] at hlen
    subst hlen
    have hto : (c.setWidth 64).toNat = c.toNat := by simp only [BitVec.toNat_setWidth]; omega
    rw [lenEncode_small (by omega)]
    exact congrArg (LenCode.mk · []) (BitVec.eq_of_toNat_eq (by rw [BitVec.toNat_setWidth, hto]; omega))
  · rw [lenDecode_medium] at h
    split at h
    · cases h
    · rename_i hge
      obtain rfl := LenResult.ok.inj h
      have hto := toNat_ofNat_fromBe (e := e) hlen (by decide)
      have hlt := fromBe_lt e
      rw [show e.length = 2 from hlen] at hlt
      have hm := lenEncode_medium (len := BitVec.ofNat 64 (fromBe e)) (by omega) (by omega)
      obtain ⟨_, _, hval⟩ := (lengthClassesPartition (BitVec.ofNat 64 (fromBe e))).2.1 (by omega) (by omega)
      rw [hm] at hval ⊢
      exact congrArg (LenCode.mk 126) (fromBe_inj hlen.symm (hval.trans hto))
  · rw [lenDecode_large] at h
    split at h
    · cases h
    · rename_i hgt
      obtain rfl := LenResult.ok.inj h
      have hto := toNat_ofNat_fromBe (e := e) hlen (by decide)
      rw [lenEncode_large (by omega)]
      exact congrArg (LenCode.mk 127) (fromBe_inj hlen.symm ((fromBe_be64 _).trans hto))

/-- Settles O17: the two halves are `lenDecode_lenEncode` and `lenEncode_of_lenDecode`. -/
theorem lengthCodecRoundTrip : Obligations.LengthCodecRoundTrip :=
  ⟨fun len => ⟨lenEncode_ext_length len, lenDecode_lenEncode len⟩,
    fun _ _ _ hlen h => lenEncode_of_lenDecode hlen h⟩

/-! ### The header bytes are their fields -/

theorem firstByteOf_fields : ∀ first, firstByteOf (finOf first) (rsvOf first) (opcodeOf first) = first := by decide
theorem secondByteOf_fields : ∀ second, secondByteOf (maskedOf second) (len7Of second) = second := by decide

/-! ### The parser reads back `frameBytes` and accepts nothing else -/

/-- The second header byte of a frame with this key and payload (30_encoding.md R91, 42_encoder.md R160). -/
def secondOf (key : Option Key) (p : Bytes) : Byte := secondByteOf key.isSome (lenEncode (payloadLen p)).len7

@[simp] theorem maskedOf_secondOf (key : Option Key) (p : Bytes) : maskedOf (secondOf key p) = key.isSome :=
  maskedOf_secondByteOf _ _

@[simp] theorem len7Of_secondOf (key : Option Key) (p : Bytes) :
    len7Of (secondOf key p) = (lenEncode (payloadLen p)).len7 := len7Of_secondByteOf _ _

/-- The segments of a frame, with the bytes after it (30_encoding.md R90). -/
theorem frameBytes_append (first : Byte) (key : Option Key) (p rest : Bytes) :
    frameBytes first key p ++ rest =
      first :: secondOf key p :: ((lenEncode (payloadLen p)).ext ++ (key.elim [] keyBytes ++ (maskOpt p key ++ rest))) := by
  simp [frameBytes, secondOf]

theorem parsePayload_append (first : Byte) (key : Option Key) (p rest : Bytes) :
    parsePayload first key p.length (maskOpt p key ++ rest) = .ok first key p rest := by
  have hlen : (maskOpt p key).length = p.length := maskOpt_length p key
  have hnot : ¬ (maskOpt p key ++ rest).length < p.length := by simp
  rw [parsePayload, if_neg hnot, List.take_left' hlen, List.drop_left' hlen, maskOpt_maskOpt]

theorem parseKey_append (first : Byte) (key : Option Key) (p rest : Bytes) :
    parseKey first key.isSome p.length (key.elim [] keyBytes ++ (maskOpt p key ++ rest)) = .ok first key p rest := by
  cases key with
  | none => exact parsePayload_append first none p rest
  | some k => exact parsePayload_append first (some k) p rest

/-- A frame's bytes, whatever follows them, are parsed as the frame. -/
theorem parseFrame_frameBytes (first : Byte) (key : Option Key) {p : Bytes} (hp : payloadFits p = true) (rest : Bytes) :
    parseFrame (frameBytes first key p ++ rest) = .ok first key p rest := by
  have hext := lenEncode_ext_length (payloadLen p)
  rw [frameBytes_append, parseFrame, len7Of_secondOf, maskedOf_secondOf, List.take_left' hext, List.drop_left' hext,
    lenDecode_lenEncode]
  simp only [List.length_append, hext, payloadLen_toNat hp]
  rw [if_neg (by omega), parseKey_append]

theorem parsePayload_eq_ok {first f : Byte} {key k : Option Key} {len : Nat} {s p rest : Bytes}
    (h : parsePayload first key len s = .ok f k p rest) :
    f = first ∧ k = key ∧ p.length = len ∧ s = maskOpt p key ++ rest := by
  unfold parsePayload at h
  split at h
  · cases h
  · rename_i hlen
    obtain ⟨rfl, rfl, rfl, rfl⟩ := Parsed.ok.inj h
    refine ⟨rfl, rfl, ?_, ?_⟩
    · rw [maskOpt_length, List.length_take]; omega
    · rw [maskOpt_maskOpt, List.take_append_drop]

theorem parseKey_eq_ok {first f : Byte} {masked : Bool} {k : Option Key} {len : Nat} {s p rest : Bytes}
    (h : parseKey first masked len s = .ok f k p rest) :
    f = first ∧ k.isSome = masked ∧ p.length = len ∧ s = k.elim [] keyBytes ++ (maskOpt p k ++ rest) := by
  cases masked with
  | false =>
    obtain ⟨rfl, rfl, hp, rfl⟩ := parsePayload_eq_ok (show parsePayload first none len s = _ from h)
    exact ⟨rfl, rfl, hp, rfl⟩
  | true =>
    simp only [parseKey] at h
    split at h
    · obtain ⟨rfl, rfl, hp, rfl⟩ := parsePayload_eq_ok h
      exact ⟨rfl, rfl, hp, rfl⟩
    · cases h

/-- Bytes the parser accepts are the frame's bytes and the rest, with a payload a length class fits. -/
theorem parseFrame_eq_ok {bytes p rest : Bytes} {first : Byte} {key : Option Key}
    (h : parseFrame bytes = .ok first key p rest) :
    frameBytes first key p ++ rest = bytes ∧ payloadFits p = true := by
  unfold parseFrame at h
  split at h
  case h_2 => cases h
  case h_1 f second s =>
    split at h
    · cases h
    · rename_i hext
      split at h
      · cases h
      · rename_i len hdec
        obtain ⟨rfl, hmask, hp, hs⟩ := parseKey_eq_ok h
        have hfits : payloadFits p = true := payloadFits_iff.mpr (hp ▸ len.isLt)
        have hlen : payloadLen p = len := BitVec.eq_of_toNat_eq ((payloadLen_toNat hfits).trans hp)
        have htake : (s.take (extSize (len7Of second))).length = extSize (len7Of second) := by
          rw [List.length_take]; omega
        have hcode := lenEncode_of_lenDecode htake hdec
        refine ⟨?_, hfits⟩
        rw [frameBytes_append, secondOf, hlen, hcode, hmask, ← hs, List.take_append_drop, secondByteOf_fields]

/-! ### The six formats -/

/-- Settles O11: the segments are `frameBytes_append`, the class of the extended field that of `lengthClassesPartition`. -/
theorem encodedFrameHasTheSixFormats : Obligations.EncodedFrameHasTheSixFormats := by
  intro first key p hp
  have hlen := payloadLen_toNat (payloadFits_iff.mpr hp)
  obtain ⟨hsmall, hmedium, hlarge⟩ := lengthClassesPartition (payloadLen p)
  have hbytes := frameBytes_append first key p []
  rw [List.append_nil, List.append_nil] at hbytes
  rw [hlen] at hsmall hmedium hlarge
  refine ⟨secondOf key p, maskedOf_secondOf key p, ?_⟩
  rw [len7Of_secondOf]
  rcases Nat.lt_or_ge p.length 126 with h | h
  · obtain ⟨hlen7, hext⟩ := hsmall h
    rw [hext] at hbytes
    exact .inl ⟨h, hlen7, hbytes⟩
  · rcases Nat.lt_or_ge 65535 p.length with h' | h'
    · obtain ⟨hlen7, hextlen, hval⟩ := hlarge h'
      exact .inr (.inr ⟨h', hlen7, _, hextlen, hval, hbytes⟩)
    · obtain ⟨hlen7, hextlen, hval⟩ := hmedium h h'
      obtain ⟨e0, e1, hext⟩ := List.length_eq_two.mp hextlen
      rw [hext] at hbytes hval
      exact .inr (.inl ⟨h, h', hlen7, e0, e1, by simpa [fromBe] using hval, hbytes⟩)

end Sys2Proof.Machine
end

section
/-! The opcode map (30_encoding.md R98, R104, R105): each row's bytes and what they are decoded to. -/

namespace Sys2Proof.Machine

/-- Every DEC row is what the opcode map answers for some opcode. -/
theorem exists_decodeOpcode {i : Instr} (h : i.isEncoder = false) : ∃ op f, i = decodeOpcode op f := by
  have hlo : ∀ lo : BitVec 2, lo = 0 ∨ lo = 1 ∨ lo = 2 ∨ lo = 3 := by decide
  cases i with
  | cont f => exact ⟨0, f, rfl⟩
  | text f => exact ⟨1, f, rfl⟩
  | binary f => exact ⟨2, f, rfl⟩
  | rsvd3 f => exact ⟨3, f, rfl⟩
  | rsvd4to7 lo f =>
    rcases hlo lo with rfl | rfl | rfl | rfl
    exacts [⟨4, f, rfl⟩, ⟨5, f, rfl⟩, ⟨6, f, rfl⟩, ⟨7, f, rfl⟩]
  | close f => exact ⟨8, f, rfl⟩
  | ping f => exact ⟨9, f, rfl⟩
  | pong f => exact ⟨10, f, rfl⟩
  | rsvd11 f => exact ⟨11, f, rfl⟩
  | rsvd12to15 lo f =>
    rcases hlo lo with rfl | rfl | rfl | rfl
    exacts [⟨12, f, rfl⟩, ⟨13, f, rfl⟩, ⟨14, f, rfl⟩, ⟨15, f, rfl⟩]
  | encCont k p | encText k p | encBinary k p | encClose k p st r | encPing k p | encPong k p => cases h

/-- A row's bytes carry the opcode it was decoded from. -/
theorem encode_decodeOpcode (op : BitVec 4) (f : Frame) : encode (decodeOpcode op f) = encodeWith op f := by
  obtain ⟨n, hn⟩ := op
  interval_cases n <;> rfl

theorem frameOf_decodeOpcode (op : BitVec 4) (f : Frame) : frameOf (decodeOpcode op f) = some f := by
  unfold decodeOpcode
  split <;> rfl

theorem wellFormed_decodeOpcode (op : BitVec 4) (f : Frame) :
    (decodeOpcode op f).wellFormed = payloadFits f.payload := by
  unfold decodeOpcode
  split <;> rfl

/-- Settles O7: the parser gives the segments back, and the first byte its fields. -/
theorem decodeOfEncodeReceivedFrame : Obligations.DecodeOfEncodeReceivedFrame := by
  intro i rest hdec hwf
  obtain ⟨op, f, rfl⟩ := exists_decodeOpcode hdec
  rw [wellFormed_decodeOpcode] at hwf
  rw [encode_decodeOpcode, encodeWith, decodeFrame, parseFrame_frameBytes _ _ hwf]
  simp only [opcodeOf_firstByteOf, finOf_firstByteOf, rsvOf_firstByteOf]

/-- What DEC's reading of the bytes is made of: the parsed frame, under the opcode of its first byte. -/
theorem decodeFrame_eq_ok {bytes rest : Bytes} {i : Instr} (h : decodeFrame bytes = .ok i rest) :
    ∃ first key p, parseFrame bytes = .ok first key p rest ∧ i = completedInstr first key p := by
  unfold decodeFrame at h
  split at h
  · rename_i first key p rest' hparse
    obtain ⟨rfl, rfl⟩ := Decoded.ok.inj h
    exact ⟨first, key, p, hparse, rfl⟩
  · cases h
  · cases h

theorem encode_completedInstr (first : Byte) (key : Option Key) (p : Bytes) :
    encode (completedInstr first key p) = frameBytes first key p := by
  rw [completedInstr, encode_decodeOpcode, encodeWith, firstByteOf_fields]

/-- Settles O9: what the parser accepts is `frameBytes` of what it reads. -/
theorem acceptedBytesAreTheEncoding : Obligations.AcceptedBytesAreTheEncoding := by
  intro bytes rest i h
  obtain ⟨first, key, p, hparse, rfl⟩ := decodeFrame_eq_ok h
  obtain ⟨hbytes, hfits⟩ := parseFrame_eq_ok hparse
  exact ⟨by rw [encode_completedInstr, hbytes], by rw [completedInstr, wellFormed_decodeOpcode]; exact hfits⟩

/-- An emitted row is a frame whose first byte names the row on the wire. -/
theorem encode_enc_shape {i : Instr} (h : i.isEncoder = true) (hwf : i.wellFormed = true) :
    ∃ first key p, encode i = frameBytes first key p ∧ payloadFits p = true ∧ encoderRow first key p = some i.onWire := by
  cases i with
  | encCont k p => exact ⟨_, k, p, rfl, hwf, rfl⟩
  | encText k p => exact ⟨_, k, p, rfl, hwf, rfl⟩
  | encBinary k p => exact ⟨_, k, p, rfl, hwf, rfl⟩
  | encClose k p st r => exact ⟨_, k, _, rfl, ((Bool.and_eq_true _ _).mp hwf).2, rfl⟩
  | encPing k p => exact ⟨_, k, p, rfl, hwf, rfl⟩
  | encPong k p => exact ⟨_, k, p, rfl, hwf, rfl⟩
  | cont f | text f | binary f | rsvd3 f | rsvd4to7 lo f | close f | ping f | pong f | rsvd11 f | rsvd12to15 lo f => cases h

/-- Settles O8: the parser gives the segments back, and the first byte the row. -/
theorem decodeOfEncodeEmittedFrame : Obligations.DecodeOfEncodeEmittedFrame := by
  intro i rest henc hwf
  obtain ⟨first, key, p, hbytes, hfits, hrow⟩ := encode_enc_shape henc hwf
  rw [hbytes, decodeEncoderFrame, parseFrame_frameBytes _ _ hfits]
  simp only [hrow]

/-! ### The rows of the opcode table -/

/-- A row depends on the opcode alone. -/
theorem headerRow_decodeOpcode (op : BitVec 4) (f g : Frame) :
    headerRow (decodeOpcode op f) = headerRow (decodeOpcode op g) := by
  unfold decodeOpcode
  split <;> rfl

/-- A DEC row looks at the opcode bits of a header word only. -/
theorem headerWord_and_mask {row : HeaderRow} (h : row ∈ decRows) (first second : Byte) :
    headerWord first second &&& row.mask = (0#4 ++ opcodeOf first ++ 0#8 : BitVec 16) &&& row.mask := by
  have hmask : ∀ row ∈ decRows, ∃ m ∈ [0x0f#8, 0x0c#8], row.mask = (m ++ 0#8 : BitVec 16) := by decide
  have hbyte : ∀ m ∈ [0x0f#8, 0x0c#8], ∀ b : Byte, b &&& m = (0#4 ++ opcodeOf b : BitVec 8) &&& m := by decide
  obtain ⟨m, hm, hrow⟩ := hmask row h
  rw [hrow, Laws.HeaderFits.headerWord_and, BitVec.and_append, hbyte m hm first, BitVec.zero_and]

/-- The sixteen opcodes against the ten rows. -/
theorem opcode_matches_one_row : ∀ op : BitVec 4,
    headerRow (decodeOpcode op ⟨false, 0, none, []⟩) ∈ decRows ∧ ∀ row ∈ decRows,
      ((0#4 ++ op ++ 0#8 : BitVec 16) &&& row.mask = row.pattern ↔
        row = headerRow (decodeOpcode op ⟨false, 0, none, []⟩)) := by decide

/-- Settles O10: a row looks at the opcode only, and each opcode matches the one row it is decoded to. -/
theorem everyHeaderWordHasOneReceivedRow : Obligations.EveryHeaderWordHasOneReceivedRow := by
  intro first second f
  obtain ⟨hmem, hiff⟩ := opcode_matches_one_row (opcodeOf first)
  rw [headerRow_decodeOpcode _ f ⟨false, 0, none, []⟩]
  refine ⟨hmem, fun row hrow => ?_⟩
  rw [headerWord_and_mask hrow]
  exact hiff row hrow

/-- Settles O6: the six words are read by evaluation. -/
theorem headerWordsDecodeByTheTable : Obligations.HeaderWordsDecodeByTheTable := by
  unfold Obligations.HeaderWordsDecodeByTheTable
  decide

/-- Settles O43: the first byte of `frameBytes` is the type's constant. -/
theorem emittedFirstBytes : Obligations.EmittedFirstBytes :=
  fun _ _ _ _ => ⟨rfl, rfl, rfl, rfl, rfl, rfl⟩

end Sys2Proof.Machine
end

section
/-! The masking transform's laws and the streaming engine (40_masking.md R132 to R135). -/

namespace Sys2Proof.Machine

/-- The key rotated by `r` gives at `i` what the key gives `r` places later (R132). -/
theorem keyByte_rotKey (k : Key) (r i : Nat) : keyByte (rotKey k r) i = keyByte k (i + r) := by
  have hmod : keyByte k (i + r) = keyByte k (i % 4 + r) := by simp only [keyByte, Nat.mod_add_mod]
  have hlt : i % 4 < 4 := Nat.mod_lt i (by decide)
  rw [hmod, keyByte]
  match i % 4, hlt with
  | 0, _ => simp only [rotKey, Nat.zero_add]
  | 1, _ | 2, _ | 3, _ => rfl

theorem keyByte_mod (k : Key) (i : Nat) : keyByte k (i % 4) = keyByte k i := by
  simp only [keyByte, Nat.mod_mod]

/-- Masking goes on where the first part ended. -/
theorem maskFrom_append (k : Key) (i : Nat) (a b : Bytes) :
    maskFrom k i (a ++ b) = maskFrom k i a ++ maskFrom k (i + a.length) b := by
  induction a generalizing i with
  | nil => rfl
  | cons x a ih =>
    simp only [List.cons_append, maskFrom, ih, List.length_cons]
    rw [Nat.add_right_comm, Nat.add_assoc]

/-- A later start index is a rotation of the key. -/
theorem maskFrom_add (k : Key) (i r : Nat) (s : Bytes) : maskFrom k (i + r) s = maskFrom (rotKey k (r % 4)) i s := by
  induction s generalizing i with
  | nil => rfl
  | cons b s ih =>
    have hkey : keyByte (rotKey k (r % 4)) i = keyByte k (i + r) := by
      rw [keyByte_rotKey, ← keyByte_mod, Nat.add_mod_mod, keyByte_mod]
    rw [maskFrom, maskFrom, hkey, Nat.add_right_comm, ih]

/-- Settles O13: the involution is `maskFrom_maskFrom`; the split goes on at a later index, which is a rotated key. -/
theorem unmaskInvertsMaskAndMaskSplits : Obligations.UnmaskInvertsMaskAndMaskSplits := by
  refine fun a b k => ⟨maskFrom_maskFrom k 0 a, ?_⟩
  calc mask (a ++ b) k = maskFrom k 0 a ++ maskFrom k (0 + a.length) b := maskFrom_append k 0 a b
    _ = mask a k ++ mask b (rotKey k (a.length % 4)) := by rw [maskFrom_add]; rfl

/-! ### The streaming engine -/

/-- A run whose first step is known goes on from the state after it. -/
theorem run_step {s t : State} (h : step s = .next t) (n : Nat) :
    Host.Core.run core (n + 1) s = Host.Core.run core n t := by
  rw [run_succ, h]
  rfl

theorem xmXorByte_eq {s : State} {k : Key} (h : s.xm.key = some k) (b : Byte) :
    xmXorByte b s = .next (out (.xorByte (b ^^^ keyByte k s.xm.idx.toNat)) { s with xm := ⟨some k, s.xm.idx + 1⟩ }) := by
  simp [xmXorByte, h]

theorem xmXorByte_none {s : State} (h : s.xm.key = none) (b : Byte) : xmXorByte b s = .refused .noXmKey := by
  simp [xmXorByte, h]

/-- The index counts modulo 4 (R134). -/
theorem idx_succ : ∀ i : BitVec 2, i + 1 = BitVec.ofNat 2 ((i.toNat + 1) % 4) := by decide

/-- Settles O14: XORBYTE is `xmXorByte_eq` with the key byte read off the wire order. -/
theorem streamingMaskOperations : Obligations.StreamingMaskOperations := by
  refine fun s k b => ⟨rfl, fun hkey => ?_, fun hkey => xmXorByte_none hkey b⟩
  have hidx : s.xm.idx.toNat % 4 = s.xm.idx.toNat := Nat.mod_eq_of_lt s.xm.idx.isLt
  calc runOp (.xmXorByte b) s = _ := xmXorByte_eq hkey b
    _ = _ := by rw [keyByte_eq_getD, hidx, idx_succ]; rfl

/-- XORBYTE of each byte in turn masks them from the engine's index on. -/
theorem run_xorBytes (k : Key) (data : Bytes) (i : Nat) (s : State) (hxm : s.xm = ⟨some k, BitVec.ofNat 2 i⟩) :
    Host.Core.run core data.length { s with pending := data.map .xmXorByte } =
      .next { s with pending := [], xm := ⟨some k, BitVec.ofNat 2 (i + data.length)⟩,
                     outputs := s.outputs ++ (maskFrom k i data).map .xorByte } := by
  induction data generalizing i s with
  | nil =>
    rw [List.length_nil, run_zero]
    simp [maskFrom, ← hxm]
  | cons b data ih =>
    have hkey : keyByte k (BitVec.ofNat 2 i).toNat = keyByte k i := by
      rw [BitVec.toNat_ofNat, ← keyByte_mod k i]
    have hstep : step { s with pending := (b :: data).map .xmXorByte } =
        .next (out (.xorByte (b ^^^ keyByte k i))
          { s with pending := data.map .xmXorByte, xm := ⟨some k, BitVec.ofNat 2 (i + 1)⟩ }) := by
      have hloaded : ({ s with pending := data.map .xmXorByte } : State).xm.key = some k := by rw [hxm]
      refine (xmXorByte_eq hloaded b).trans ?_
      simp only [hxm, hkey, BitVec.ofNat_add]
      rfl
    rw [List.length_cons, run_step hstep]
    refine (ih (i + 1) (out (.xorByte (b ^^^ keyByte k i)) { s with xm := ⟨some k, BitVec.ofNat 2 (i + 1)⟩ }) rfl).trans ?_
    simp [out, maskFrom, Nat.add_assoc, Nat.add_comm 1]

/-- Settles O15: LOADKEY sets the index to 0, from where `run_xorBytes` goes on. -/
theorem streamingMaskEqualsMask : Obligations.StreamingMaskEqualsMask := by
  intro s k data
  rw [run_step (step_pending s (.xmLoadKey k) (data.map .xmXorByte))]
  refine (run_xorBytes k data 0 { s with xm := ⟨some k, 0⟩ } rfl).trans ?_
  rw [Nat.zero_add]
  rfl

end Sys2Proof.Machine
end

section
/-! What the DEC rows do (44_frame_completion.md), written out, and the frame of every DEC row. -/

namespace Sys2Proof.Machine

theorem isEncoder_of_frameOf {i : Instr} {f : Frame} (h : frameOf i = some f) : i.isEncoder = false := by
  cases i with
  | encCont k p | encText k p | encBinary k p | encClose k p st r | encPing k p | encPong k p => cases h
  | cont f | text f | binary f | rsvd3 f | rsvd4to7 lo f | close f | ping f | pong f | rsvd11 f | rsvd12to15 lo f => rfl

/-! ### Data frames -/

/-- What a data frame does on a live decoder: append, retype the message, end the fragment (R212 to R214). -/
def dataFrame (p : Bytes) (fin : Bool) (m : Option MsgType) (s : State) : Out :=
  andThen (accumulate p s) fun u => .next (endOfFragment fin (retype m u))

theorem exec_cont_live (f : Frame) {s : State} (h : s.dec.dead = false) :
    exec (.cont f) s = dataFrame f.payload f.fin none s := by
  simp only [exec, execCont, whenLive_live h]
  rfl

theorem exec_text_live (f : Frame) {s : State} (h : s.dec.dead = false) :
    exec (.text f) s = dataFrame f.payload f.fin (some .text) s := by
  simp only [exec, execText, whenLive_live h]
  rfl

theorem exec_binary_live (f : Frame) {s : State} (h : s.dec.dead = false) :
    exec (.binary f) s = dataFrame f.payload f.fin (some .binary) s := by
  simp only [exec, execBinary, whenLive_live h]
  rfl

theorem dataFrame_refused {p : Bytes} {s : State} (h : allowsMessage s.cfg (accBytes s.dec ++ p).length = false)
    (fin : Bool) (m : Option MsgType) : dataFrame p fin m s = .refused .messageLimit := by
  rw [dataFrame, accumulate_eq, h]
  rfl

/-- The end of a fragment with `data` accumulated and type `t`: the message waits, is rejected, or is delivered (R216). -/
theorem endOfFragment_afterFrame (fin : Bool) (data : Bytes) (t : MsgType) (s : State) :
    endOfFragment fin (afterFrame (some data) t [] s) =
      if fin = false then afterFrame (some data) t [] s
      else if t = .text ∧ utf8Wf data = false then raise .invalidUtf8Text (afterFrame (some data) t [] s)
      else afterFrame none .none [.event (.message t data)] s := by
  have hreject : rejectsText (afterFrame (some data) t [] s).dec = true ↔ t = .text ∧ utf8Wf data = false := by
    simp [rejectsText, accBytes]
  rcases endOfFragment_cases fin (afterFrame (some data) t [] s) with ⟨hfin, he⟩ | ⟨hfin, hr, he⟩ | ⟨hfin, hr, he⟩
  · rw [he, if_pos hfin]
  · rw [he, if_neg (by simp [hfin]), if_pos (hreject.mp hr)]
  · rw [he, if_neg (by simp [hfin]), if_neg (fun h => nomatch hr.symm.trans (hreject.mpr h))]
    simp [deliver, emit, out, afterFrame, accBytes]

theorem dataFrame_eq {p : Bytes} {s : State} (h : allowsMessage s.cfg (accBytes s.dec ++ p).length = true)
    (fin : Bool) (m : Option MsgType) :
    dataFrame p fin m s =
      .next (endOfFragment fin (afterFrame (some (accBytes s.dec ++ p)) (m.getD s.dec.msgType) [] s)) := by
  rw [dataFrame, accumulate_eq, if_pos h, andThen_next, retype_eq]
  simp [afterFrame]

/-- Settles O30: a data frame that keeps the type. -/
theorem contRowAppendsAndDelivers : Obligations.ContRowAppendsAndDelivers := by
  intro f s hlive hallow
  rw [exec_cont_live f hlive, dataFrame_eq hallow, endOfFragment_afterFrame]
  simp [afterFrame, accBytes, raise, emit, out, errorCode]

/-- Settles O31: a data frame that makes the message text. -/
theorem textRowValidatesAndDelivers : Obligations.TextRowValidatesAndDelivers := by
  intro f s hlive hallow
  rw [exec_text_live f hlive, dataFrame_eq hallow, endOfFragment_afterFrame]
  simp [afterFrame, accBytes, raise, emit, out, errorCode]

/-- Settles O32: a data frame that makes the message binary, so that no validation applies. -/
theorem binaryRowDeliversUnvalidated : Obligations.BinaryRowDeliversUnvalidated := by
  intro f s hlive hallow
  rw [exec_binary_live f hlive, dataFrame_eq hallow, endOfFragment_afterFrame]
  simp [afterFrame, accBytes]

/-- Settles O33: beyond the limit `accumulate` refuses, so all three data rows do. -/
theorem messageAboveConfiguredLimitIsRefused : Obligations.MessageAboveConfiguredLimitIsRefused := by
  intro f s m hlive hcfg hlong
  have hdeny : allowsMessage s.cfg (accBytes s.dec ++ f.payload).length = false := by
    simp [allowsMessage, hcfg, accBytes, hlong]
  exact ⟨(exec_cont_live f hlive).trans (dataFrame_refused hdeny _ _),
    (exec_text_live f hlive).trans (dataFrame_refused hdeny _ _),
    (exec_binary_live f hlive).trans (dataFrame_refused hdeny _ _)⟩

/-! ### Control frames and reserved opcodes -/

theorem exec_close_live (f : Frame) {s : State} (h : s.dec.dead = false) :
    exec (.close f) s = .next (controlFrame f.fin (.close (closeMeaning f.payload).1 (closeMeaning f.payload).2) s) := by
  simp only [exec, execClose, whenLive_live h]

theorem exec_ping_live (f : Frame) {s : State} (h : s.dec.dead = false) :
    exec (.ping f) s = .next (controlFrame f.fin (.ping f.payload) s) := by
  simp only [exec, execPing, whenLive_live h]

theorem exec_pong_live (f : Frame) {s : State} (h : s.dec.dead = false) :
    exec (.pong f) s = .next (controlFrame f.fin (.pong f.payload) s) := by
  simp only [exec, execPong, whenLive_live h]

/-- Settles O34: with FIN the event, without it the error. -/
theorem pingAndPongRowsDeliverAtOnce : Obligations.PingAndPongRowsDeliverAtOnce := by
  intro f s hlive
  rw [exec_ping_live f hlive, exec_pong_live f hlive]
  cases f.fin with
  | false => exact ⟨rfl, rfl⟩
  | true => exact ⟨rfl, rfl⟩

theorem closeMeaning_short {p : Bytes} (h : p.length < 2) : closeMeaning p = (.noStatus, []) := by
  match p, h with
  | [], _ | [_], _ => rfl
  | _ :: _ :: r, h => simp at h

theorem closeMeaning_cons (a b : Byte) (r : Bytes) :
    closeMeaning (a :: b :: r) = (statusSym (a.toNat * 256 + b.toNat), r) := by
  simp [closeMeaning, fromBe]

/-- Settles O35: with FIN the row emits `closeMeaning` of its payload. -/
theorem closeRowReportsStatusAndReason : Obligations.CloseRowReportsStatusAndReason := by
  intro f s hlive hfin
  rw [exec_close_live f hlive, hfin]
  refine ⟨fun a b reason hp => ?_, fun hshort => ?_⟩
  · rw [hp, closeMeaning_cons]; rfl
  · rw [closeMeaning_short hshort]; rfl

/-- Settles O36: without FIN each control row is the error entry. -/
theorem fragmentedControlFrameKills : Obligations.FragmentedControlFrameKills := by
  rintro f s i (rfl | rfl | rfl) hlive hfin
  · rw [exec_close_live f hlive, hfin]; rfl
  · rw [exec_ping_live f hlive, hfin]; rfl
  · rw [exec_pong_live f hlive, hfin]; rfl

theorem exec_reserved_live {i : Instr} {f : Frame} {lo : BitVec 2}
    (hi : i = .rsvd3 f ∨ i = .rsvd4to7 lo f ∨ i = .rsvd11 f ∨ i = .rsvd12to15 lo f) {s : State}
    (h : s.dec.dead = false) : exec i s = .next (raise .unknownOpcode s) := by
  rcases hi with rfl | rfl | rfl | rfl
  · simp only [exec, execRsvd3, reservedFrame, whenLive_live h]
  · simp only [exec, execRsvd4to7, reservedFrame, whenLive_live h]
  · simp only [exec, execRsvd11, reservedFrame, whenLive_live h]
  · simp only [exec, execRsvd12to15, reservedFrame, whenLive_live h]

/-! ### Every DEC row -/

/-- On live decoders with one configuration and one message under reassembly a DEC row does the same: both are refused, or
both go on with the same message and events, or both raise the same error. -/
theorem exec_dec_uniform {i : Instr} (h : i.isEncoder = false) {s s' : State} (hl : s.dec.dead = false)
    (hl' : s'.dec.dead = false) (hcfg : s'.cfg = s.cfg) (hacc : s'.dec.acc = s.dec.acc)
    (htype : s'.dec.msgType = s.dec.msgType) :
    (exec i s = .refused .messageLimit ∧ exec i s' = .refused .messageLimit) ∨
    (∃ acc m os, exec i s = .next (afterFrame acc m os s) ∧ exec i s' = .next (afterFrame acc m os s')) ∨
    (∃ acc m e, exec i s = .next (raise e (afterFrame acc m [] s))
      ∧ exec i s' = .next (raise e (afterFrame acc m [] s'))) := by
  have hkeep : ∀ s : State, afterFrame s.dec.acc s.dec.msgType [] s = s := fun s => by simp [afterFrame]
  rcases exec_dec_shape h with ⟨p, fin, m, hs⟩ | ⟨fin, e, _, hs⟩ | hs
  · have hs (s : State) (hl : s.dec.dead = false) : exec i s = dataFrame p fin m s := hs s hl
    have hbytes : accBytes s'.dec = accBytes s.dec := by simp [accBytes, hacc]
    rw [hs s hl, hs s' hl']
    cases hallow : allowsMessage s.cfg (accBytes s.dec ++ p).length with
    | false =>
      exact .inl ⟨dataFrame_refused hallow fin m, dataFrame_refused (by rw [hcfg, hbytes, hallow]) fin m⟩
    | true =>
      rw [dataFrame_eq hallow, dataFrame_eq (s := s') (by rw [hcfg, hbytes, hallow]), hbytes, htype,
        endOfFragment_afterFrame, endOfFragment_afterFrame]
      split
      · exact .inr (.inl ⟨_, _, _, rfl, rfl⟩)
      · split
        · exact .inr (.inr ⟨_, _, _, rfl, rfl⟩)
        · exact .inr (.inl ⟨_, _, _, rfl, rfl⟩)
  · rw [hs s hl, hs s' hl']
    cases fin with
    | true =>
      refine .inr (.inl ⟨s.dec.acc, s.dec.msgType, [.event e], rfl, ?_⟩)
      rw [← hacc, ← htype]; rfl
    | false =>
      refine .inr (.inr ⟨s.dec.acc, s.dec.msgType, .fragmentedControlFrame, ?_, ?_⟩)
      · rw [hkeep]; rfl
      · rw [← hacc, ← htype, hkeep]; rfl
  · rw [hs s hl, hs s' hl']
    refine .inr (.inr ⟨s.dec.acc, s.dec.msgType, .unknownOpcode, ?_, ?_⟩)
    · rw [hkeep]
    · rw [← hacc, ← htype, hkeep]

/-- Settles O39: each of the three things a DEC row can do keeps everything else. -/
theorem receivedRowsChangeOnlyTheMessage : Obligations.ReceivedRowsChangeOnlyTheMessage := by
  intro i s t hdec ht
  cases hdead : s.dec.dead with
  | true =>
    rw [exec_dec_dead hdec hdead] at ht
    obtain rfl := (Host.Outcome.next.injEq _ _).mp ht
    exact ⟨rfl, rfl, rfl, rfl, rfl, fun _ => ⟨rfl, rfl⟩, nofun, fun _ => hdead, [], by simp, by simp⟩
  | false =>
    rcases exec_dec_cases hdec hdead ht with ⟨acc, m, os, rfl, _, hos, _⟩ | ⟨acc, m, e, rfl, _, _⟩
    · exact ⟨rfl, rfl, rfl, rfl, rfl, fun _ => ⟨rfl, rfl⟩, fun _ h => absurd (hdead.symm.trans h) nofun, nofun, os, hos,
        rfl⟩
    · exact ⟨rfl, rfl, rfl, rfl, rfl, nofun, fun _ _ => rfl, nofun,
        [.event (.error e s.dec.frameStart s.dec.offset)], Nat.le_refl 1, by simp⟩

/-- Settles O38: both halves are the guard on `dec.dead`. -/
theorem deadDecoderDiscardsEverything : Obligations.DeadDecoderDiscardsEverything :=
  fun _ hdead => ⟨fun _ => feed_dead hdead, fun _ hdec => exec_dec_dead hdec hdead⟩

/-! ### Reassembly -/

theorem execAll_append (xs ys : List Instr) (s : State) :
    execAll (xs ++ ys) s = andThen (execAll xs s) (execAll ys) := by
  induction xs generalizing s with
  | nil => rfl
  | cons x xs ih =>
    simp only [List.cons_append, execAll]
    rw [andThen_assoc]
    exact andThen_congr fun t _ => ih t

theorem execAll_singleton (i : Instr) (s : State) : execAll [i] s = exec i s := by
  rw [execAll]
  cases exec i s <;> rfl

theorem allowsMessage_unlimited {c : Config} (h : c.maxMessageBytes = none) (n : Nat) : allowsMessage c n = true := by
  simp [allowsMessage, h]

/-- One piece appends its data and hands over its event; the type stays. -/
theorem exec_piece {i : Instr} (h : IsPiece i) {s : State} (hl : s.dec.dead = false)
    (hcfg : s.cfg.maxMessageBytes = none) :
    ∃ acc, acc.getD [] = accBytes s.dec ++ (pieceData i).getD []
      ∧ exec i s = .next (afterFrame acc s.dec.msgType ((pieceEvent i).toList.map .event) s) := by
  obtain ⟨f, ⟨rfl, hfin⟩ | ⟨hi, hfin⟩⟩ := h
  · refine ⟨some (accBytes s.dec ++ f.payload), rfl, ?_⟩
    rw [exec_cont_live f hl, dataFrame_eq (allowsMessage_unlimited hcfg _), hfin]
    rfl
  · rcases hi with rfl | rfl | rfl
    · exact ⟨s.dec.acc, (List.append_nil _).symm, by rw [exec_ping_live f hl, hfin]; rfl⟩
    · exact ⟨s.dec.acc, (List.append_nil _).symm, by rw [exec_pong_live f hl, hfin]; rfl⟩
    · exact ⟨s.dec.acc, (List.append_nil _).symm, by rw [exec_close_live f hl, hfin]; rfl⟩

/-- The pieces together append all their data and hand over their events, in order. -/
theorem execAll_pieces {is : List Instr} (h : ∀ i ∈ is, IsPiece i) {s : State} (hl : s.dec.dead = false)
    (hcfg : s.cfg.maxMessageBytes = none) :
    ∃ acc, acc.getD [] = accBytes s.dec ++ (is.filterMap pieceData).flatten
      ∧ execAll is s = .next (afterFrame acc s.dec.msgType ((is.filterMap pieceEvent).map .event) s) := by
  induction is generalizing s with
  | nil => exact ⟨s.dec.acc, (List.append_nil _).symm, by simp [execAll, afterFrame]⟩
  | cons i is ih =>
    obtain ⟨acc₁, hacc₁, he₁⟩ := exec_piece (h i List.mem_cons_self) hl hcfg
    obtain ⟨acc, hacc, he⟩ := ih (fun j hj => h j (List.mem_cons_of_mem i hj))
      (s := afterFrame acc₁ s.dec.msgType ((pieceEvent i).toList.map .event) s) hl hcfg
    refine ⟨acc, ?_, ?_⟩
    · rw [hacc, accBytes, afterFrame_dec, hacc₁]
      cases hd : pieceData i <;> simp [hd]
    · rw [execAll, he₁, andThen_next, he]
      cases hv : pieceEvent i <;> simp [hv, afterFrame]

/-- Pieces ended by a data frame with FIN: one message of all the data, or the error of a text that is not UTF-8. -/
theorem execAll_pieces_last {is : List Instr} (h : ∀ i ∈ is, IsPiece i) {s : State} (hl : s.dec.dead = false)
    (hcfg : s.cfg.maxMessageBytes = none) {i : Instr} {p data : Bytes} {m : Option MsgType} {t : MsgType}
    (hi : ∀ s : State, s.dec.dead = false → exec i s = dataFrame p true m s)
    (hdata : data = accBytes s.dec ++ (is.filterMap pieceData).flatten ++ p) (ht : t = m.getD s.dec.msgType) :
    execAll (is ++ [i]) s = .next
      (if t = .text ∧ utf8Wf data = false then
        raise .invalidUtf8Text (afterFrame (some data) t ((is.filterMap pieceEvent).map .event) s)
      else afterFrame none .none ((is.filterMap pieceEvent).map .event ++ [.event (.message t data)]) s) := by
  obtain ⟨acc, hacc, he⟩ := execAll_pieces h hl hcfg
  rw [execAll_append, he, andThen_next, execAll_singleton, hi (afterFrame acc _ _ s) hl,
    dataFrame_eq (allowsMessage_unlimited (by exact hcfg) _), endOfFragment_afterFrame, if_neg nofun]
  simp only [accBytes, afterFrame_dec, hacc, ← ht]
  simp only [accBytes] at hdata
  rw [← hdata]
  split <;> simp [afterFrame]

/-- Settles O40: the pieces leave the message they found with their data appended (`execAll_pieces_last`); a first TEXT or
BINARY fragment sets its type before them. -/
theorem fragmentsReassembleAcrossControlFrames : Obligations.FragmentsReassembleAcrossControlFrames := by
  intro pieces frames first last s t data hl hcfg hfirst hlast hpieces hframes
  have hcont (u : State) (hu : u.dec.dead = false) : exec (.cont last) u = dataFrame last.payload true none u :=
    hlast ▸ exec_cont_live last hu
  have htext (u : State) (hu : u.dec.dead = false) : exec (.text last) u = dataFrame last.payload true (some .text) u :=
    hlast ▸ exec_text_live last hu
  have hbinary (u : State) (hu : u.dec.dead = false) :
      exec (.binary last) u = dataFrame last.payload true (some .binary) u := hlast ▸ exec_binary_live last hu
  have hbegin (m : MsgType) : dataFrame first.payload first.fin (some m) s =
      .next (afterFrame (some (accBytes s.dec ++ first.payload)) m [] s) := by
    rw [dataFrame_eq (allowsMessage_unlimited hcfg _), hfirst]
    rfl
  have hrun : execAll frames s = .next
      (if t = .text ∧ utf8Wf data = false then
        raise .invalidUtf8Text (afterFrame (some data) t ((pieces.filterMap pieceEvent).map .event) s)
      else afterFrame none .none ((pieces.filterMap pieceEvent).map .event ++ [.event (.message t data)]) s) := by
    rcases hframes with ⟨hdata, ⟨rfl, ht⟩ | ⟨rfl, ht⟩ | ⟨rfl, ht⟩⟩ | ⟨hdata, ⟨rfl, ht⟩ | ⟨rfl, ht⟩⟩
    · exact execAll_pieces_last hpieces hl hcfg htext hdata ht
    · exact execAll_pieces_last hpieces hl hcfg hbinary hdata ht
    · exact execAll_pieces_last hpieces hl hcfg hcont hdata ht
    · rw [execAll, exec_text_live first hl, hbegin, andThen_next,
        execAll_pieces_last hpieces (by exact hl) (by exact hcfg) hcont hdata ht]
      simp [afterFrame]
    · rw [execAll, exec_binary_live first hl, hbegin, andThen_next,
        execAll_pieces_last hpieces (by exact hl) (by exact hcfg) hcont hdata ht]
      simp [afterFrame]
  rw [hrun]
  refine ⟨fun hvalid => ?_, fun ht hinvalid => ?_⟩
  · rw [if_neg fun ⟨ht, hinvalid⟩ => by simp [hvalid ht] at hinvalid]
    simp [afterFrame]
  · rw [if_pos ⟨ht, hinvalid⟩, ht]
    simp [afterFrame, raise, emit, out, errorCode]

end Sys2Proof.Machine
end

section
/-! FEED does not depend on how its input is cut into chunks, nor on what DEC does not see (20_memory.md R65,
43_decoder_phases.md R188). -/

namespace Sys2Proof.Machine

/-! ### Bytes that arrive later -/

/-- A chunk arrives: a live decoder buffers it, a dead one discards it (R187, R258). -/
def arrive (c : Bytes) (s : State) : State := if s.dec.dead then s else buffer c s

theorem arrive_live {s : State} (h : s.dec.dead = false) (c : Bytes) : arrive c s = buffer c s := by simp [arrive, h]
theorem arrive_dead {s : State} (h : s.dec.dead = true) (c : Bytes) : arrive c s = s := by simp [arrive, h]

theorem buffer_append (a b : Bytes) (s : State) : buffer (a ++ b) s = buffer b (buffer a s) := by simp [buffer]
theorem buffer_nil (s : State) : buffer [] s = s := by simp [buffer]

theorem arrive_append (a b : Bytes) (s : State) : arrive (a ++ b) s = arrive b (arrive a s) := by
  cases h : s.dec.dead with
  | false => rw [arrive_live h, arrive_live h, buffer_append, arrive_live (by exact h)]
  | true => rw [arrive_dead h, arrive_dead h, arrive_dead h]

theorem arrive_nil (s : State) : arrive [] s = s := by
  rw [arrive, buffer_nil, ite_self]

/-- FEED is the run of the phases once the chunk has arrived. -/
theorem feed_eq (c : Bytes) (s : State) : feed c s = advanceAll (arrive c s) := by
  cases h : s.dec.dead with
  | false => rw [arrive_live h, feed_live h]
  | true => rw [arrive_dead h, feed_dead h, advanceAll_disabled (enabled_dead h)]

/-- A step that is enabled stays so when more bytes arrive. -/
theorem enabled_buffer {s : State} (h : enabled s.dec = true) (c : Bytes) : enabled (buffer c s).dec = true := by
  obtain ⟨hlive, hready⟩ := enabled_iff.mp h
  refine enabled_iff.mpr ⟨hlive, ?_⟩
  unfold phaseReady at hready ⊢
  simp only [buffer_dec]
  cases hp : s.dec.phase <;> simp only [hp, decide_eq_true_eq, List.length_append] at hready ⊢ <;> omega

/-- When the run of the phases ends, no step is enabled. -/
theorem advanceAll_ends {s t : State} (h : advanceAll s = .next t) : enabled t.dec = false := by
  induction s using advance_induct with
  | hd s he =>
    rw [advanceAll_disabled he] at h
    obtain rfl := (Host.Outcome.next.injEq _ _).mp h
    exact he
  | hs s he ih =>
    rw [advanceAll_enabled he] at h
    obtain ⟨u, hu, ht⟩ := andThen_eq_next.mp h
    exact ih u hu ht

/-! ### What DEC does not see -/

/-- A change of the state that DEC does not see: it keeps the decoder and the limits, and the decoder's writes and outputs
go through it. -/
structure Unseen (g : State → State) : Prop where
  dec : ∀ s, (g s).dec = s.dec
  cfg : ∀ s, (g s).cfg = s.cfg
  setDec : ∀ s d, g { s with dec := d } = { g s with dec := d }
  addOutputs : ∀ s os, g { s with outputs := s.outputs ++ os } = { g s with outputs := (g s).outputs ++ os }

theorem unseen_id : Unseen id := ⟨fun _ => rfl, fun _ => rfl, fun _ _ => rfl, fun _ _ => rfl⟩

/-- The state `r` with the decoder and the limits of `s`, and with the outputs of `s` after its own. -/
def graft (r s : State) : State := { r with cfg := s.cfg, dec := s.dec, outputs := r.outputs ++ s.outputs }

theorem unseen_graft (r : State) : Unseen (graft r) :=
  ⟨fun _ => rfl, fun _ => rfl, fun _ _ => rfl, fun s os => by simp [graft]⟩

/-- A state before it returned anything. -/
def silent (s : State) : State := { s with outputs := [] }

/-- Any state with the same decoder and limits is a graft of the silent state. -/
theorem graft_silent {s r : State} (hcfg : r.cfg = s.cfg) (hdec : r.dec = s.dec) : graft r (silent s) = r := by
  simp [graft, silent, ← hcfg, ← hdec]

section
variable {g : State → State} (hg : Unseen g)
include hg

theorem Unseen.afterFrame (acc : Option Bytes) (m : MsgType) (os : List Output) (s : State) :
    g (afterFrame acc m os s) = afterFrame acc m os (g s) := by
  have hout := hg.addOutputs { s with dec := { s.dec with acc := acc, msgType := m } } os
  rw [hg.setDec] at hout
  rw [Machine.afterFrame, Machine.afterFrame, hg.dec]
  exact hout

theorem Unseen.raise (e : DecError) (s : State) : g (raise e s) = raise e (g s) := by
  have hout := hg.addOutputs { s with dec := { s.dec with dead := true, errCode := errorCode e, inbuf := [] } }
    [.event (.error e s.dec.frameStart s.dec.offset)]
  rw [hg.setDec] at hout
  rw [Machine.raise, Machine.raise, hg.dec]
  exact hout

theorem Unseen.consume (n : Nat) (s : State) : g (consume n s) = consume n (g s) := by
  rw [Machine.consume, Machine.consume, hg.setDec, hg.dec]

theorem Unseen.arrive (c : Bytes) (s : State) : g (arrive c s) = arrive c (g s) := by
  rw [Machine.arrive, Machine.arrive, hg.dec]
  split
  · rfl
  · rw [buffer, buffer, hg.setDec, hg.dec]

theorem Unseen.afterCompletion (s : State) : g (afterCompletion s) = afterCompletion (g s) := by
  cases h : s.dec.dead with
  | true => rw [afterCompletion_dead h, afterCompletion_dead (by rw [hg.dec, h])]
  | false =>
    rw [afterCompletion_live h, afterCompletion_live (by rw [hg.dec, h]), clearScratch, clearScratch, hg.setDec, hg.dec]

/-! ### Each phase step, with more bytes buffered and an unseen change made -/

omit hg in
theorem consume_buffer {n : Nat} {s : State} (h : n ≤ s.dec.inbuf.length) (c : Bytes) :
    consume n (buffer c s) = buffer c (consume n s) := by
  simp [consume, buffer, List.drop_append_of_le_length h]

omit hg in
theorem buffer_take {n : Nat} {s : State} (h : n ≤ s.dec.inbuf.length) (c : Bytes) :
    (buffer c s).dec.inbuf.take n = s.dec.inbuf.take n := List.take_append_of_le_length h

theorem headerStep_extend {s : State} (h : 2 ≤ s.dec.inbuf.length) (c : Bytes) :
    headerStep (buffer c (g s)) = buffer c (g (headerStep s)) := by
  have h0 : (s.dec.inbuf ++ c)[0]? = s.dec.inbuf[0]? := List.getElem?_append_left (by omega)
  have h1 : (s.dec.inbuf ++ c)[1]? = s.dec.inbuf[1]? := List.getElem?_append_left (by omega)
  have hset : g (headerStep s) = { g s with dec := (headerStep s).dec } := hg.setDec s _
  rw [hset]
  simp only [headerStep, consume, buffer, hg.dec, h0, h1, List.drop_append_of_le_length h]

theorem maskStep_extend {s : State} (h : 4 ≤ s.dec.inbuf.length) (c : Bytes) :
    maskStep (buffer c (g s)) = buffer c (g (maskStep s)) := by
  have hset : g (maskStep s) = { g s with dec := (maskStep s).dec } := hg.setDec s _
  rw [hset]
  simp only [maskStep, consume, buffer, hg.dec, List.take_append_of_le_length h, List.drop_append_of_le_length h]

theorem takePayload_extend {n : Nat} {s : State} (h : n ≤ s.dec.inbuf.length) (key : Option Key) (c : Bytes) :
    takePayload n key (buffer c (g s)) = buffer c (g (takePayload n key s)) := by
  have hset : g (takePayload n key s) = { g s with dec := (takePayload n key s).dec } := hg.setDec s _
  rw [hset]
  simp only [takePayload, consume, buffer, hg.dec, List.take_append_of_le_length h, List.drop_append_of_le_length h]

theorem resolveLength_extend {s : State} (hlive : s.dec.dead = false) (second : Byte) (r : LenResult) (c : Bytes) :
    resolveLength second r (buffer c (g s)) = andThen (resolveLength second r s) fun t => .next (arrive c (g t)) := by
  cases r with
  | nonMinimal =>
    change Host.Outcome.next (raise _ (buffer c (g s))) = .next (arrive c (g (raise _ s)))
    rw [hg.raise, arrive_dead (by rfl)]
    rfl
  | ok len =>
    simp only [resolveLength, buffer_cfg, hg.cfg]
    cases allowsFrame s.cfg len.toNat with
    | false => rfl
    | true =>
      have hset := hg.setDec s
        { s.dec with payloadLength := some len, phase := if maskedOf second then .mask else .payload }
      rw [andThen_next, hset, arrive_live (by exact hlive)]
      simp only [buffer, hg.dec, hg.cfg]

theorem lengthStep_extend {s : State} (hlive : s.dec.dead = false) (hready : ∀ b, s.dec.secondByte = some b →
    extSize (len7Of b) ≤ s.dec.inbuf.length) (c : Bytes) :
    lengthStep (buffer c (g s)) = andThen (lengthStep s) fun t => .next (arrive c (g t)) := by
  have hsecond : (buffer c (g s)).dec.secondByte = s.dec.secondByte := by rw [buffer_dec, hg.dec]
  unfold lengthStep
  rw [hsecond]
  cases hb : s.dec.secondByte with
  | none => rfl
  | some b =>
    have hlen : extSize (len7Of b) ≤ (g s).dec.inbuf.length := by rw [hg.dec]; exact hready b hb
    simp only [buffer_take hlen, consume_buffer hlen, ← hg.consume]
    rw [hg.dec]
    exact resolveLength_extend hg (by exact hlive) b _ c

theorem payloadStep_extend {s : State} (hlive : s.dec.dead = false) (hready : ∀ len, s.dec.payloadLength = some len →
    len.toNat ≤ s.dec.inbuf.length) (c : Bytes) :
    payloadStep (buffer c (g s)) = andThen (payloadStep s) fun t => .next (arrive c (g t)) := by
  have htake (len : BitVec 64) (hlen : s.dec.payloadLength = some len) (key : Option Key) :
      takePayload len.toNat key (buffer c (g s)) = arrive c (g (takePayload len.toNat key s)) := by
    rw [takePayload_extend hg (hready len hlen), arrive_live (by rw [hg.dec]; exact hlive)]
  unfold payloadStep
  simp only [buffer_dec, hg.dec]
  cases hlen : s.dec.payloadLength with
  | none => rfl
  | some len =>
    cases hb : s.dec.secondByte with
    | none => rfl
    | some b =>
      cases hm : maskedOf b with
      | false => simp [hm, htake len hlen]
      | true => cases hk : s.dec.maskKey <;> simp [hm, htake len hlen]

/-- A DEC row does not look at the buffered input. -/
theorem exec_extend {i : Instr} (hi : i.isEncoder = false) {s : State} (hlive : s.dec.dead = false) (c : Bytes) :
    exec i (buffer c (g s)) = andThen (exec i s) fun t => .next (arrive c (g t)) := by
  have hdec : (buffer c (g s)).dec = { s.dec with inbuf := s.dec.inbuf ++ c } := by rw [buffer_dec, hg.dec]
  rcases exec_dec_uniform hi hlive (s' := buffer c (g s)) (by rw [hdec]; exact hlive) (hg.cfg s) (by rw [hdec])
    (by rw [hdec]) with ⟨h, h'⟩ | ⟨acc, m, os, h, h'⟩ | ⟨acc, m, e, h, h'⟩
  · rw [h, h']; rfl
  · rw [h, h', andThen_next, hg.afterFrame, arrive_live (by simpa [hg.dec] using hlive)]
    rfl
  · rw [h, h', andThen_next, hg.raise, hg.afterFrame, arrive_dead (by rfl)]
    rfl

omit hg in
theorem completedInstr_isEncoder (first : Byte) (key : Option Key) (p : Bytes) :
    (completedInstr first key p).isEncoder = false := decodeOpcode_isEncoder _ _

theorem completeStep_extend {s : State} (hlive : s.dec.dead = false) (c : Bytes) :
    completeStep (buffer c (g s)) = andThen (completeStep s) fun t => .next (arrive c (g t)) := by
  have hcommute (t : State) : afterCompletion (arrive c (g t)) = arrive c (g (afterCompletion t)) := by
    rw [hg.afterCompletion]
    cases h : (g t).dec.dead with
    | true => rw [arrive_dead h, afterCompletion_dead h, arrive_dead h]
    | false =>
      rw [arrive_live h, afterCompletion_live h, afterCompletion_live (by exact h), arrive_live (by exact h)]
      rfl
  unfold completeStep
  simp only [buffer_dec, hg.dec]
  cases hf : s.dec.firstByte with
  | none => rfl
  | some first =>
    cases hp : s.dec.payload with
    | none => rfl
    | some p =>
      change andThen (exec (completedInstr first s.dec.maskKey p) (buffer c (g s))) _ =
        andThen (andThen (exec (completedInstr first s.dec.maskKey p) s) _) _
      rw [exec_extend hg (completedInstr_isEncoder _ _ _) hlive, andThen_assoc, andThen_assoc]
      exact andThen_congr fun t _ => congrArg Host.Outcome.next (hcommute t)

/-- An enabled step does the same when more bytes have arrived, and leaves them buffered unless it kills the decoder. -/
theorem phaseStep_extend {s : State} (h : enabled s.dec = true) (c : Bytes) :
    phaseStep (buffer c (g s)) = andThen (phaseStep s) fun t => .next (arrive c (g t)) := by
  obtain ⟨hlive, hready⟩ := enabled_iff.mp h
  unfold phaseStep
  unfold phaseReady at hready
  simp only [buffer_dec, hg.dec]
  cases hp : s.dec.phase with
  | header =>
    simp only [hp, decide_eq_true_eq, andThen_next] at hready ⊢
    rw [headerStep_extend hg hready, arrive_live (by rw [hg.dec]; exact hlive)]
  | payloadLength =>
    simp only [hp, decide_eq_true_eq] at hready ⊢
    exact lengthStep_extend hg hlive (fun b hb => by simpa [hb] using hready) c
  | mask =>
    simp only [hp, decide_eq_true_eq, andThen_next] at hready ⊢
    rw [maskStep_extend hg hready, arrive_live (by rw [hg.dec]; exact hlive)]
  | payload =>
    simp only [hp, decide_eq_true_eq] at hready ⊢
    exact payloadStep_extend hg hlive (fun len hlen => by simpa [hlen] using hready) c
  | complete => exact completeStep_extend hg hlive c

/-! ### The run of the phases -/

/-- A run of the phases with more bytes buffered is the run without them, and then a FEED of them. -/
theorem advanceAll_extend (c : Bytes) (s : State) :
    advanceAll (arrive c (g s)) = andThen (advanceAll s) fun t => feed c (g t) := by
  induction s using advance_induct with
  | hd s he => rw [advanceAll_disabled he, andThen_next, feed_eq]
  | hs s he ih =>
    have hlive : (g s).dec.dead = false := by rw [hg.dec]; exact (enabled_iff.mp he).1
    rw [arrive_live hlive, advanceAll_enabled he, advanceAll_enabled (enabled_buffer (by rw [hg.dec]; exact he) c),
      phaseStep_extend hg he, andThen_assoc, andThen_assoc]
    exact andThen_congr fun t ht => ih t ht

/-- FEED of two chunks joined, with an unseen change made between them. -/
theorem feed_append (a b : Bytes) (s : State) : feed (a ++ b) (g s) = andThen (feed a s) fun t => feed b (g t) := by
  rw [feed_eq, feed_eq a, arrive_append, ← hg.arrive, advanceAll_extend hg]

/-- FEED goes through an unseen change. -/
theorem feed_unseen (c : Bytes) (s : State) : feed c (g s) = andThen (feed c s) fun t => .next (g t) := by
  have h := feed_append hg c [] s
  rw [List.append_nil] at h
  rw [h, feed_eq]
  refine andThen_congr fun t ht => ?_
  rw [feed_eq, arrive_nil]
  exact advanceAll_disabled (by rw [hg.dec]; exact advanceAll_ends ht)

end

/-! ### The frame of FEED -/

/-- No phase step writes the configuration. -/
theorem phaseStep_cfg {s t : State} (hs : phaseStep s = .next t) : t.cfg = s.cfg := by
  unfold phaseStep at hs
  cases hp : s.dec.phase with
  | header | mask =>
    simp only [hp, Host.Outcome.next.injEq] at hs
    subst hs
    rfl
  | payloadLength =>
    simp only [hp] at hs
    obtain ⟨b, _, ⟨_, rfl⟩ | ⟨len, _, _, rfl⟩⟩ := lengthStep_cases hs <;> rfl
  | payload =>
    simp only [hp] at hs
    obtain ⟨len, b, _, _, ⟨_, rfl⟩ | ⟨k, _, _, rfl⟩⟩ := payloadStep_cases hs <;> rfl
  | complete =>
    simp only [hp] at hs
    obtain ⟨first, p, u, _, _, hu, rfl⟩ := completeStep_cases hs
    obtain ⟨_, _, hcfg, _⟩ := receivedRowsChangeOnlyTheMessage _ _ _ (decodeOpcode_isEncoder _ _) hu
    rw [← hcfg, afterCompletion]
    split <;> rfl

theorem feed_cfg {c : Bytes} {s t : State} (h : feed c s = .next t) : t.cfg = s.cfg :=
  (feed_keeps (P := fun u => u.cfg = s.cfg) (fun _ _ hu _ hv => (phaseStep_cfg hv).trans hu) (fun _ => rfl)
    (fun _ => rfl) h).1

/-- FEED writes the decoder and appends outputs, and does so the same in every state with this decoder and these limits. -/
theorem feed_next {c : Bytes} {s t : State} (h : feed c s = .next t) :
    ∃ os, ∀ r : State, r.cfg = s.cfg → r.dec = s.dec →
      feed c r = .next { r with dec := t.dec, outputs := r.outputs ++ os } := by
  have hgraft (r : State) (hcfg : r.cfg = s.cfg) (hdec : r.dec = s.dec) :
      feed c r = andThen (feed c (silent s)) fun u => .next (graft r u) := by
    conv_lhs => rw [← graft_silent hcfg hdec]
    exact feed_unseen (unseen_graft r) c (silent s)
  obtain ⟨u, hu, hut⟩ := andThen_eq_next.mp ((hgraft s rfl rfl).symm.trans h)
  have hdec : t.dec = u.dec := by rw [← (Host.Outcome.next.injEq _ _).mp hut]; rfl
  refine ⟨u.outputs, fun r hcfg hr => ?_⟩
  have hucfg : u.cfg = r.cfg := (feed_cfg hu).trans hcfg.symm
  rw [hgraft r hcfg hr, hu, andThen_next, graft, hucfg, hdec]

theorem feed_frame {c : Bytes} {s t : State} (h : feed c s = .next t) :
    ∃ os, t = { s with dec := t.dec, outputs := s.outputs ++ os } := by
  obtain ⟨os, hos⟩ := feed_next h
  exact ⟨os, (Host.Outcome.next.injEq _ _).mp (h.symm.trans (hos s rfl rfl))⟩

/-! ### Chunking -/

theorem unseen_pending (ops : List HostOp) : Unseen fun s => { s with pending := ops } :=
  ⟨fun _ => rfl, fun _ => rfl, fun _ _ => rfl, fun _ _ => rfl⟩

/-- Settles O21: the second chunk arrives after the first has been worked off, or before (`feed_append`); what is pending
DEC does not see. -/
theorem chunkingDoesNotMatter : Obligations.ChunkingDoesNotMatter := by
  intro s a b ops
  have hstep (t : State) (ht : feed a { s with pending := .decFeed b :: ops } = .next t) :
      step t = feed b { t with pending := ops } := by
    obtain ⟨os, hframe⟩ := feed_frame ht
    rw [hframe]
    rfl
  have hjoin : andThen (feed a { s with pending := .decFeed b :: ops }) (Host.Core.run core 1) =
      feed (a ++ b) { s with pending := ops } := by
    rw [feed_append (unseen_pending ops) a b { s with pending := .decFeed b :: ops }]
    exact andThen_congr fun t ht => (run_one t).trans (hstep t ht)
  exact (run_succ 1 _).trans (hjoin.trans (run_one { s with pending := .decFeed (a ++ b) :: ops }).symm)

theorem run_add (m n : Nat) (s : State) :
    Host.Core.run core (m + n) s = andThen (Host.Core.run core m s) (Host.Core.run core n) := by
  induction m generalizing s with
  | zero => rw [Nat.zero_add]; rfl
  | succ m ih =>
    rw [Nat.add_right_comm, run_succ, run_succ]
    refine Eq.trans ?_ (andThen_assoc _ _ _).symm
    exact andThen_congr fun t _ => ih t

/-- A chunk and then single bytes are the chunk with the bytes at its end. -/
theorem run_chunk_then_bytes (a c : Bytes) (s : State) (ops : List HostOp) :
    Host.Core.run core (c.length + 1) { s with pending := .decFeed a :: (c.map (fun b => .decFeed [b]) ++ ops) } =
      Host.Core.run core 1 { s with pending := .decFeed (a ++ c) :: ops } := by
  induction c generalizing a with
  | nil => rw [List.append_nil]; rfl
  | cons b c ih =>
    have hjoin := chunkingDoesNotMatter s a [b] (c.map (fun b => .decFeed [b]) ++ ops)
    rw [List.length_cons, Nat.add_assoc, Nat.add_comm, run_add, List.map_cons, List.cons_append, hjoin, ← run_add,
      Nat.add_comm, ih, List.append_assoc, List.singleton_append]

/-- Settles O22: the first byte is a chunk, and each further byte joins it. -/
theorem byteSerialFeedIsTheSame : Obligations.ByteSerialFeedIsTheSame := by
  intro s c ops hc
  obtain ⟨b, c, rfl⟩ := List.exists_cons_of_ne_nil hc
  exact run_chunk_then_bytes [b] c s ops

end Sys2Proof.Machine
end

section
/-! FEED from a frame boundary, step by step, and FEED as the iteration of the one-shot decoder (43_decoder_phases.md
sections 2 and 3). -/

namespace Sys2Proof.Machine

/-! ### The payload-length step -/

theorem phaseStep_header {s : State} (h : s.dec.phase = .header) : phaseStep s = .next (headerStep s) := by
  simp [phaseStep, h]

theorem phaseStep_payloadLength {s : State} (h : s.dec.phase = .payloadLength) : phaseStep s = lengthStep s := by
  simp [phaseStep, h]

theorem phaseStep_complete {s : State} (h : s.dec.phase = .complete) : phaseStep s = completeStep s := by
  simp [phaseStep, h]

theorem phaseUnit_payloadLength {d : DecState} {b : Byte} (h : d.phase = .payloadLength) (hb : d.secondByte = some b) :
    phaseUnit d = some (extSize (len7Of b)) := by
  simp [phaseUnit, h, hb]

theorem lengthStep_eq {s : State} {b : Byte} (hb : s.dec.secondByte = some b) :
    lengthStep s =
      resolveLength b (lenDecode (len7Of b) (s.dec.inbuf.take (extSize (len7Of b)))) (consume (extSize (len7Of b)) s) := by
  simp [lengthStep, hb]

theorem resolveLength_ok {len : BitVec 64} {s : State} (b : Byte) (h : allowsFrame s.cfg len.toNat = true) :
    resolveLength b (.ok len) s = .next { s with dec := { s.dec with
      payloadLength := some len, phase := if maskedOf b then .mask else .payload } } := by
  simp [resolveLength, h]

/-- Settles O26: the unit is the extended bytes, and `resolveLength` answers their decoding. -/
theorem payloadLengthStepResolvesOrRaises : Obligations.PayloadLengthStepResolvesOrRaises := by
  rintro s b n hphase hb rfl
  rw [phaseStep_payloadLength hphase, lengthStep_eq hb]
  refine ⟨enabled_iff_live_and_unit_buffered (phaseUnit_payloadLength hphase hb), fun len hdec hallow => ?_, fun hdec => ?_⟩
  · rw [hdec, resolveLength_ok b (by exact hallow)]
    rfl
  · rw [hdec]
    rfl

/-! ### The run of the phases over the segments of a frame -/

theorem advanceAll_step {s t : State} (he : enabled s.dec = true) (h : phaseStep s = .next t) :
    advanceAll s = advanceAll t := by
  rw [advanceAll_enabled he, h, andThen_next]

/-- The state after the header step from a frame boundary, `rest` still buffered (R181). -/
def headerRead (first second : Byte) (rest : Bytes) (s : State) : State :=
  { s with dec := { s.dec with
      phase := .payloadLength, inbuf := rest, firstByte := some first, secondByte := some second,
      frameStart := s.dec.offset, offset := s.dec.offset + 2 } }

theorem feed_header {s : State} (hs : AtFrameStart s.dec) (first second : Byte) (rest : Bytes) :
    feed (first :: second :: rest) s = advanceAll (headerRead first second rest s) := by
  obtain ⟨hlive, hphase, hbuf, _⟩ := hs
  have henabled : enabled (buffer (first :: second :: rest) s).dec = true :=
    enabled_iff.mpr ⟨hlive, by simp [phaseReady, hphase, hbuf]⟩
  rw [feed_live hlive, advanceAll_step henabled (phaseStep_header hphase)]
  simp [headerStep, consume, buffer, hbuf, headerRead]

section
variable {s : State} {b : Byte} (hlive : s.dec.dead = false) (hb : s.dec.secondByte = some b)
include hlive hb

/-- The payload-length step with its extended bytes `e` first in the buffer. -/
theorem advanceAll_lengthStep (hphase : s.dec.phase = .payloadLength) {e rest : Bytes}
    (he : e.length = extSize (len7Of b)) (hbuf : s.dec.inbuf = e ++ rest) :
    advanceAll s = andThen (resolveLength b (lenDecode (len7Of b) e)
      { s with dec := { s.dec with inbuf := rest, offset := s.dec.offset + e.length } }) advanceAll := by
  have henabled := (enabled_iff_live_and_unit_buffered (phaseUnit_payloadLength hphase hb)).mpr
    ⟨hlive, by rw [hbuf, ← he, List.length_append]; omega⟩
  rw [advanceAll_enabled henabled, phaseStep_payloadLength hphase, lengthStep_eq hb, consume, hbuf,
    List.take_left' he, List.drop_left' he, he]

/-- The payload step with the masked payload first in the buffer. -/
theorem advanceAll_payloadStep (hphase : s.dec.phase = .payload) {len : BitVec 64} (hlen : s.dec.payloadLength = some len)
    {key : Option Key} (hkey : s.dec.maskKey = key) (hmask : maskedOf b = key.isSome) {p rest : Bytes}
    (hp : p.length = len.toNat) (hbuf : s.dec.inbuf = maskOpt p key ++ rest) :
    advanceAll s = advanceAll { s with dec := { s.dec with
      inbuf := rest, offset := s.dec.offset + p.length, payload := some p, phase := .complete } } := by
  have hplen : (maskOpt p key).length = len.toNat := (maskOpt_length p key).trans hp
  have henabled := (enabled_iff_live_and_unit_buffered (phaseUnit_payload hphase hlen)).mpr
    ⟨hlive, by rw [hbuf, List.length_append]; omega⟩
  have htake : payloadStep s = .next (takePayload len.toNat key s) := by
    cases key with
    | none => exact payloadStep_unmasked hlen hb hmask
    | some k => exact payloadStep_masked hlen hb hmask hkey
  rw [advanceAll_step henabled ((phaseStep_payload hphase).trans htake), takePayload_of_append key hbuf hplen,
    maskOpt_maskOpt, hp]

/-- The mask step, if there is a key, and the payload step. -/
theorem advanceAll_key_payload {key : Option Key} (hphase : s.dec.phase = if key.isSome then .mask else .payload)
    {len : BitVec 64} (hlen : s.dec.payloadLength = some len) (hkey : s.dec.maskKey = none)
    (hmask : maskedOf b = key.isSome) {p rest : Bytes} (hp : p.length = len.toNat)
    (hbuf : s.dec.inbuf = key.elim [] keyBytes ++ (maskOpt p key ++ rest)) :
    advanceAll s = advanceAll { s with dec := { s.dec with
      inbuf := rest, offset := s.dec.offset + (key.elim [] keyBytes).length + p.length, maskKey := key,
      payload := some p, phase := .complete } } := by
  cases key with
  | none =>
    rw [advanceAll_payloadStep hlive hb hphase hlen hkey hmask hp hbuf]
    simp [hkey]
  | some k =>
    have henabled := (enabled_iff_live_and_unit_buffered (phaseUnit_mask hphase)).mpr
      ⟨hlive, by rw [hbuf]; simp⟩
    rw [advanceAll_step henabled (phaseStep_mask hphase), maskStep_of_cons hbuf]
    exact advanceAll_payloadStep (by exact hlive) (by exact hb) rfl (by exact hlen) rfl hmask hp rfl

end

/-- FEED of a header and its extended length from a frame boundary: the rest depends on what the length says. -/
theorem feed_header_length {s : State} (hs : AtFrameStart s.dec) (first : Byte) {second : Byte} {e : Bytes}
    (he : e.length = extSize (len7Of second)) (rest : Bytes) :
    feed (first :: second :: (e ++ rest)) s = andThen (resolveLength second (lenDecode (len7Of second) e)
      { headerRead first second rest s with dec := { (headerRead first second rest s).dec with
        offset := s.dec.offset + 2 + e.length } }) advanceAll := by
  rw [feed_header hs]
  obtain ⟨hlive, _⟩ := hs
  exact advanceAll_lengthStep (s := headerRead first second (e ++ rest) s) hlive rfl rfl he rfl

theorem afterCompletion_eq (t : State) : afterCompletion t = if t.dec.dead then t else clearScratch t := by
  cases h : t.dec.dead with
  | true => rw [afterCompletion_dead h]; rfl
  | false => rw [afterCompletion_live h]; rfl

/-- The complete step with more bytes buffered: the frame is executed, then the bytes are fed. -/
theorem advanceAll_complete {s : State} (hlive : s.dec.dead = false) (hphase : s.dec.phase = .complete) {first : Byte}
    {p : Bytes} (hfirst : s.dec.firstByte = some first) (hp : s.dec.payload = some p) (rest : Bytes) :
    advanceAll (buffer rest s) =
      andThen (exec (completedInstr first s.dec.maskKey p) s) fun t => feed rest (afterCompletion t) := by
  have henabled : enabled s.dec = true := enabled_iff.mpr ⟨hlive, by simp [phaseReady, hphase]⟩
  have hstep : completeStep s =
      andThen (exec (completedInstr first s.dec.maskKey p) s) fun t => .next (afterCompletion t) := by
    simp [completeStep, hfirst, hp]
  have hext : phaseStep (buffer rest s) = andThen (phaseStep s) fun t => .next (arrive rest t) :=
    phaseStep_extend unseen_id henabled rest
  rw [advanceAll_enabled (enabled_buffer henabled rest), hext, phaseStep_complete hphase, hstep, andThen_assoc,
    andThen_assoc]
  exact andThen_congr fun t _ => (feed_eq rest (afterCompletion t)).symm

/-- FEED of a frame from a frame boundary loads its scratch fields, executes it, and then is FEED of the rest. -/
theorem feed_frameBytes {s : State} (hs : AtFrameStart s.dec) (first : Byte) (key : Option Key) {p : Bytes}
    (hp : payloadFits p = true) (hallow : allowsFrame s.cfg p.length = true) (rest : Bytes) :
    feed (frameBytes first key p ++ rest) s =
      andThen (exec (completedInstr first key p) (fetched first (secondOf key p) ⟨finOf first, rsvOf first, key, p⟩
        (frameBytes first key p).length s)) fun t => feed rest (afterCompletion t) := by
  have hlen := payloadLen_toNat hp
  have hext := lenEncode_ext_length (payloadLen p)
  have hsize : (frameBytes first key p).length =
      2 + (lenEncode (payloadLen p)).ext.length + (key.elim [] keyBytes).length + p.length := by
    simp [frameBytes]; omega
  have hfeed := feed_header_length hs first (second := secondOf key p) (by rw [len7Of_secondOf]; exact hext)
    (key.elim [] keyBytes ++ (maskOpt p key ++ rest))
  obtain ⟨hlive, _, hbuf, _, _, _, hkey, _⟩ := hs
  rw [frameBytes_append, hfeed, len7Of_secondOf, lenDecode_lenEncode,
    resolveLength_ok _ (by rw [hlen]; exact hallow), andThen_next, maskedOf_secondOf,
    advanceAll_key_payload (by exact hlive) rfl rfl rfl (by exact hkey) (maskedOf_secondOf key p) hlen.symm rfl]
  refine Eq.trans (congrArg advanceAll ?_) (advanceAll_complete (s := fetched first (secondOf key p)
    ⟨finOf first, rsvOf first, key, p⟩ (frameBytes first key p).length s) hlive rfl rfl rfl rest)
  simp [buffer, fetched, headerRead, hbuf, hsize, Nat.add_assoc]

/-- Settles O20: the bytes the one-shot decoder accepts are the frame's, and `feed_frameBytes` runs it. -/
theorem feedIteratesTheFrameDecoder : Obligations.FeedIteratesTheFrameDecoder := by
  intro s first second bytes rest i f hs hdec hf hallow
  obtain ⟨first', key, p, hparse, rfl⟩ := decodeFrame_eq_ok hdec
  obtain ⟨hbytes, hp⟩ := parseFrame_eq_ok hparse
  rw [completedInstr, frameOf_decodeOpcode, Option.some.injEq] at hf
  subst hf
  have hlen := congrArg List.length hbytes
  rw [frameBytes_append, List.cons.injEq, List.cons.injEq] at hbytes
  obtain ⟨rfl, rfl, hbytes⟩ := hbytes
  have hn : bytes.length + 2 - rest.length = (frameBytes first' key p).length := by
    simp only [List.length_append, List.length_cons] at hlen
    omega
  rw [hn, ← hbytes, ← frameBytes_append, feed_frameBytes hs first' key hp hallow]
  simp only [afterCompletion_eq]

/-! ### Single frames -/

/-- After a completed frame with no unit buffered nothing is left to do. -/
theorem feed_nil_afterCompletion {i : Instr} (hi : i.isEncoder = false) {s t : State} (hlive : s.dec.dead = false)
    (hbuf : s.dec.inbuf = []) (h : exec i s = .next t) : feed [] (afterCompletion t) = .next (afterCompletion t) := by
  obtain ⟨_, _, _, _, _, hkeep, _⟩ := receivedRowsChangeOnlyTheMessage i s t hi h
  cases hdead : t.dec.dead with
  | true => rw [afterCompletion_dead hdead, feed_dead hdead]
  | false =>
    obtain ⟨_, hinbuf⟩ := hkeep (hdead.trans hlive.symm)
    rw [feed_eq, arrive_nil, afterCompletion_live hdead]
    exact advanceAll_disabled (by simp [enabled, phaseReady, hinbuf, hbuf])

/-- FEED of exactly one frame from a frame boundary. -/
theorem feed_one_frame {s : State} (hs : AtFrameStart s.dec) (first : Byte) (key : Option Key) {p : Bytes}
    (hp : payloadFits p = true) (hallow : allowsFrame s.cfg p.length = true) :
    feed (frameBytes first key p) s =
      andThen (exec (completedInstr first key p) (fetched first (secondOf key p) ⟨finOf first, rsvOf first, key, p⟩
        (frameBytes first key p).length s)) fun t => .next (afterCompletion t) := by
  have hfeed := feed_frameBytes hs first key hp hallow []
  rw [List.append_nil] at hfeed
  rw [hfeed]
  obtain ⟨hlive, _, hbuf, _⟩ := hs
  exact andThen_congr fun t ht => feed_nil_afterCompletion (completedInstr_isEncoder first key p)
    (by exact hlive) (by exact hbuf) ht

/-- Settles O18: the step is a FEED of the frame and of nothing after it. -/
theorem stepRunsTheReceivedFrame : Obligations.StepRunsTheReceivedFrame := by
  intro s first second bytes ops i f hs hpending hdec hf hallow
  have hstep : step s = feed (first :: second :: bytes) { s with pending := ops } := by
    rw [step, runNext, hpending]
    rfl
  rw [hstep, feedIteratesTheFrameDecoder { s with pending := ops } first second bytes [] i f hs hdec hf hallow]
  obtain ⟨hlive, _, hbuf, _⟩ := hs
  refine andThen_congr fun t ht => ?_
  rw [← afterCompletion_eq]
  exact feed_nil_afterCompletion (isEncoder_of_frameOf hf) (by exact hlive) (by exact hbuf) ht

/-- FEED of a received row's bytes runs the row. -/
theorem feed_encode {i : Instr} {f : Frame} (hf : frameOf i = some f) (hwf : i.wellFormed = true) {s : State}
    (hs : AtFrameStart s.dec) (hallow : allowsFrame s.cfg f.payload.length = true) (rest : Bytes) :
    ∃ first second, feed (encode i ++ rest) s =
      andThen (exec i (fetched first second f (encode i).length s)) fun t => feed rest (afterCompletion t) := by
  obtain ⟨op, g, rfl⟩ := exists_decodeOpcode (isEncoder_of_frameOf hf)
  rw [frameOf_decodeOpcode, Option.some.injEq] at hf
  subst hf
  rw [wellFormed_decodeOpcode] at hwf
  refine ⟨firstByteOf g.fin g.rsv op, secondOf g.key g.payload, ?_⟩
  rw [encode_decodeOpcode, encodeWith, feed_frameBytes hs _ _ hwf hallow]
  simp only [completedInstr, opcodeOf_firstByteOf, finOf_firstByteOf, rsvOf_firstByteOf]

theorem frameOf_reserved {i : Instr} {f : Frame} {lo : BitVec 2}
    (hi : i = .rsvd3 f ∨ i = .rsvd4to7 lo f ∨ i = .rsvd11 f ∨ i = .rsvd12to15 lo f) : frameOf i = some f := by
  rcases hi with rfl | rfl | rfl | rfl <;> rfl

/-- Settles O37: the row is the error entry, in the state where the whole frame has been consumed; what follows is fed to a
dead decoder. -/
theorem reservedOpcodeKills : Obligations.ReservedOpcodeKills := by
  intro f lo s i hi
  refine ⟨exec_reserved_live hi, fun rest hs hwf hallow => ?_⟩
  obtain ⟨first, second, hfeed⟩ := feed_encode (frameOf_reserved hi) hwf hs hallow rest
  obtain ⟨hlive, _⟩ := hs
  refine ⟨raise .unknownOpcode (fetched first second f (encode i).length s), ?_, rfl, rfl, rfl, rfl, rfl, rfl⟩
  refine hfeed.trans ?_
  rw [exec_reserved_live hi (by exact hlive), andThen_next, afterCompletion_dead (by rfl), feed_dead (by rfl)]

/-! ### Frames that stop at the length field -/

/-- Settles O28: the length step raises once header and extended length are consumed. -/
theorem nonMinimalLengthKillsAtTheLengthField : Obligations.NonMinimalLengthKillsAtTheLengthField := by
  intro s first second e rest hs hbad
  have hdec : e.length = extSize (len7Of second) ∧ lenDecode (len7Of second) e = .nonMinimal := by
    rcases hbad with ⟨hcode, he, hval⟩ | ⟨hcode, he, hval⟩
    · rw [hcode]; exact ⟨he, (lenDecode_medium e).trans (if_pos hval)⟩
    · rw [hcode]; exact ⟨he, (lenDecode_large e).trans (if_pos hval)⟩
  obtain ⟨he, hdec⟩ := hdec
  refine (feed_header_length hs first he rest).trans ?_
  obtain ⟨_, _, hbuf, _⟩ := hs
  simp only [hdec, resolveLength, andThen_next]
  rw [advanceAll_disabled (enabled_dead (by rfl)), hbuf]
  rfl

/-- Settles O29: the length step refuses what the limit does not allow. -/
theorem frameAboveConfiguredLimitIsRefused : Obligations.FrameAboveConfiguredLimitIsRefused := by
  intro s first second e rest len m hs he hdec hcfg hlong
  have hdeny : allowsFrame s.cfg len.toNat = false := by simp [allowsFrame, hcfg, hlong]
  refine (feed_header_length hs first he rest).trans ?_
  rw [hdec]
  simp [resolveLength, headerRead, hdeny]

/-! ### Every byte is consumed or buffered -/

/-- A phase step takes some of the buffered bytes. -/
theorem phaseStep_takesBytes {s t : State} (h : enabled s.dec = true) (hs : phaseStep s = .next t) :
    ∃ n, n ≤ s.dec.inbuf.length ∧ TakesBytes n s t := by
  cases hunit : phaseUnit s.dec with
  | some n =>
    exact ⟨n, ((enabled_iff_live_and_unit_buffered hunit).mp h).2, phaseStep_takes_unit hunit hs⟩
  | none =>
    cases hphase : s.dec.phase with
    | header | mask => simp [phaseUnit, hphase] at hunit
    | payloadLength =>
      rw [phaseStep_payloadLength hphase] at hs
      obtain ⟨b, hb, _⟩ := lengthStep_cases hs
      simp [phaseUnit_payloadLength hphase hb] at hunit
    | payload =>
      rw [phaseStep_payload hphase] at hs
      obtain ⟨len, _, hlen, _⟩ := payloadStep_cases hs
      simp [phaseUnit_payload hphase hlen] at hunit
    | complete =>
      rw [phaseStep_complete hphase] at hs
      obtain ⟨first, p, u, _, _, hu, rfl⟩ := completeStep_cases hs
      obtain ⟨_, _, _, _, hdec, hkeep, _⟩ :=
        receivedRowsChangeOnlyTheMessage _ s u (completedInstr_isEncoder _ _ _) hu
      have hoffset : u.dec.offset = s.dec.offset := by rw [hdec]
      refine ⟨0, Nat.zero_le _, ?_⟩
      cases hdead : u.dec.dead with
      | true =>
        rw [afterCompletion_dead hdead]
        exact ⟨hoffset, fun hlive => nomatch hdead.symm.trans hlive⟩
      | false =>
        rw [afterCompletion_live hdead]
        exact ⟨hoffset, fun _ => (hkeep (hdead.trans (enabled_iff.mp h).1.symm)).2⟩

/-- Of the input that begins at `offset`, the first bytes are counted and the others buffered, while the decoder lives. -/
def ReadsInput (offset : Nat) (input : Bytes) (u : State) : Prop :=
  ∃ n, n ≤ input.length ∧ u.dec.offset = offset + n ∧ (u.dec.dead = false → u.dec.inbuf = input.drop n)

theorem readsInput_step {offset : Nat} {input : Bytes} {u v : State} (hu : ReadsInput offset input u)
    (he : enabled u.dec = true) (h : phaseStep u = .next v) : ReadsInput offset input v := by
  obtain ⟨n, hn, hoffset, hbuf⟩ := hu
  have hinbuf : u.dec.inbuf = input.drop n := hbuf (enabled_iff.mp he).1
  obtain ⟨m, hm, htaken, hrest⟩ := phaseStep_takesBytes he h
  rw [hinbuf, List.length_drop] at hm
  refine ⟨n + m, by omega, by omega, fun hlive => ?_⟩
  rw [hrest hlive, hinbuf, List.drop_drop]

/-- Settles O25: what arrives is read from the position of the FEED on, by every phase step. -/
theorem everyByteIsConsumedOrBuffered : Obligations.EveryByteIsConsumedOrBuffered := by
  intro s t chunk hlive h
  obtain ⟨⟨n, hn, hoffset, hbuf⟩, _⟩ := feed_keeps (P := ReadsInput s.dec.offset (s.dec.inbuf ++ chunk))
    (fun u v hu he hv => readsInput_step hu he hv) (fun _ => ⟨0, Nat.zero_le _, rfl, fun _ => rfl⟩)
    (fun hdead => nomatch hdead.symm.trans hlive) h
  refine ⟨by omega, fun htlive => ?_⟩
  have hinbuf := hbuf htlive
  have htotal := congrArg List.length hinbuf
  rw [List.length_drop, List.length_append] at htotal
  rw [List.length_append] at hn
  exact ⟨by omega, by rw [hinbuf, hoffset, Nat.add_sub_cancel_left]⟩

end Sys2Proof.Machine
end

section
/-! The ENC rows and operations (42_encoder.md), and the round trips from ENC to DEC (42_encoder.md section 6). -/

namespace Sys2Proof.Machine

/-! ### The ENC rows -/

/-- The state after the ENC row of type `t` has run: the register written, the frame returned (R150, R157, R160). -/
def emitted (t : FrameType) (k : Option Key) (p : Bytes) (s : State) : State :=
  { s with
    enc := { mValid := true, mType := t, mPayload := maskOpt p k, mMasked := k.isSome, mKey := k },
    outputs := s.outputs ++ [.frame (frameBytes (encFirstByte t) k p)] }

theorem build_mask_emit_emitted (t : FrameType) (k : Option Key) {p : Bytes} (s : State) (h : payloadFits p = true) :
    andThen (build t p s) (maskThenEmit k) = .next (emitted t k p s) := by
  rw [build_mask_emit t k s h, emitBytes_maskOpt]
  rfl

theorem build_refused (t : FrameType) {p : Bytes} (s : State) (h : 2 ^ 64 ≤ p.length) :
    build t p s = .refused .payloadTooLong := by
  rw [build_eq, if_neg]
  rw [payloadFits_iff]
  omega

theorem build_ok (t : FrameType) {p : Bytes} (s : State) (h : p.length < 2 ^ 64) :
    build t p s = .next { s with enc := ⟨true, t, p, false, none⟩ } := by
  rw [build_eq, if_pos (payloadFits_iff.mpr h)]
  rfl

theorem exec_encClose {st : Option (BitVec 16)} {r : Option Bytes} (h : closeViolates st r = false) (k : Option Key)
    (p : Bytes) (s : State) :
    exec (.encClose k p st r) s = andThen (build .close (closePayload p st r) s) (maskThenEmit k) := by
  simp [exec, execEncClose, buildClose, h]

theorem runOp_buildClose {st : Option (BitVec 16)} {r : Option Bytes} (h : closeViolates st r = false) (p : Bytes)
    (s : State) : runOp (.encBuildClose p st r) s = build .close (closePayload p st r) s := by
  simp [runOp, buildClose, h]

theorem closeViolates_some (c : BitVec 16) (r : Option Bytes) : closeViolates (some c) r = false := by
  simp [closeViolates]

theorem be16_eq (c : BitVec 16) : be16 c = [BitVec.ofNat 8 (c.toNat / 256), BitVec.ofNat 8 c.toNat] := by
  simp [be16, BitVec.extractLsb', Nat.shiftRight_eq_div_pow]

/-- The status and the reason as the payload they pack to (R156). -/
theorem closePayload_some (p : Bytes) (c : BitVec 16) (r : Option Bytes) :
    closePayload p (some c) r = BitVec.ofNat 8 (c.toNat / 256) :: BitVec.ofNat 8 c.toNat :: r.getD [] := by
  rw [closePayload, be16_eq]
  rfl

theorem closePayload_some_length (p : Bytes) (c : BitVec 16) (r : Option Bytes) :
    (closePayload p (some c) r).length = (r.getD []).length + 2 := by
  rw [closePayload_some]
  rfl

/-- Settles O41: each row builds, masks and emits its type. -/
theorem encoderRowsEmitTheirEncoding : Obligations.EncoderRowsEmitTheirEncoding := by
  intro k p s i t hi hp
  have hrow := build_mask_emit_emitted t k s (payloadFits_iff.mpr hp)
  rcases hi with ⟨rfl, rfl⟩ | ⟨rfl, rfl⟩ | ⟨rfl, rfl⟩ | ⟨rfl, rfl⟩ | ⟨rfl, rfl⟩ <;> exact hrow

/-- Settles O42: the row is that of type close, on the packed payload. -/
theorem encoderCloseRowPacksStatus : Obligations.EncoderCloseRowPacksStatus := by
  refine fun k p s => ⟨fun c reason hlen => ?_, fun hlen => ?_⟩
  · have hfits : payloadFits (closePayload p (some c) reason) = true :=
      payloadFits_iff.mpr ((closePayload_some_length p c reason).symm ▸ hlen)
    rw [exec_encClose (closeViolates_some c reason), build_mask_emit_emitted .close k s hfits, ← closePayload_some p]
    rfl
  · rw [exec_encClose rfl]
    exact build_mask_emit_emitted .close k s (payloadFits_iff.mpr hlen)

/-- Settles O44: the violation ends the build and the row. -/
theorem reasonWithoutStatusIsRejected : Obligations.ReasonWithoutStatusIsRejected :=
  fun _ _ _ _ => ⟨rfl, rfl⟩

/-- Settles O45: the build refuses the payload, so the row stops there. -/
theorem oversizedPayloadIsRefused : Obligations.OversizedPayloadIsRefused := by
  refine fun k p s => ⟨fun hlong i hi => ?_, fun c reason hlong => ?_⟩
  · have hrow (t : FrameType) : andThen (build t p s) (maskThenEmit k) = .refused .payloadTooLong := by
      rw [build_refused t s hlong, andThen_refused]
    simp only [List.mem_cons, List.not_mem_nil, or_false] at hi
    rcases hi with rfl | rfl | rfl | rfl | rfl | rfl
    exacts [hrow .continuation, hrow .text, hrow .binary, (exec_encClose rfl k p s).trans (hrow .close), hrow .ping,
      hrow .pong]
  · have hpacked : 2 ^ 64 ≤ (closePayload p (some c) (some reason)).length := by
      rw [closePayload_some_length]
      exact hlong
    rw [exec_encClose (closeViolates_some c _), build_refused .close s hpacked, andThen_refused]

/-! ### The single operations -/

/-- Settles O46: every build is `build` of its type, a close's of the packed payload. -/
theorem buildsWriteTheWholeRegister : Obligations.BuildsWriteTheWholeRegister := by
  refine fun p s hp => ⟨build_ok .continuation s hp, build_ok .text s hp, build_ok .binary s hp, build_ok .ping s hp,
    build_ok .pong s hp, build_ok .close s hp, fun c reason hlen => ?_⟩
  rw [runOp_buildClose (closeViolates_some c reason), build_ok .close s (by rw [closePayload_some_length]; exact hlen),
    closePayload_some]

/-- Settles O47: the three clauses are the three cases of `maskMessage_cases`. -/
theorem maskHappensExactlyOnce : Obligations.MaskHappensExactlyOnce := by
  intro k s
  rcases maskMessage_cases k s with ⟨hv, hm, h⟩ | ⟨hv, h⟩ | ⟨hv, hm, h⟩
  · exact ⟨fun _ _ => h, fun hv' => absurd (hv.symm.trans hv') nofun, fun _ hm' => absurd (hm.symm.trans hm') nofun⟩
  · exact ⟨fun hv' => absurd (hv.symm.trans hv') nofun, fun _ => h, fun hv' => absurd (hv.symm.trans hv') nofun⟩
  · exact ⟨fun _ hm' => absurd (hm.symm.trans hm') nofun, fun hv' => absurd (hv.symm.trans hv') nofun, fun _ _ => h⟩

/-- Settles O48: the register holds the payload under its key, so the bytes are those of the unmasked payload; the state
after the first emit holds the same register. -/
theorem emitWritesNothingAndRepeats : Obligations.EmitWritesNothingAndRepeats := by
  refine fun s hinv => ⟨fun hv => ?_, fun hv => by simp [runOp, emitMessage, hv]⟩
  obtain ⟨hkey, hlen⟩ := hinv hv
  have hemit (u : State) (hu : u.enc = s.enc) : emitMessage u =
      .next (out (.frame (emitBytes s.enc.mType s.enc.mKey s.enc.mPayload)) u) := by
    rw [← hu] at hv hkey hlen ⊢
    exact emitMessage_ok hv hkey (payloadFits_iff.mpr hlen)
  refine ⟨emitBytes s.enc.mType s.enc.mKey s.enc.mPayload, ?_, hemit s rfl, ?_⟩
  · rw [← emitBytes_maskOpt, maskOpt_maskOpt]
  · rw [run_step ((step_pending s .encEmit [.encEmit]).trans (hemit _ rfl)), run_one]
    refine (hemit { out _ s with pending := [] } rfl).trans (congrArg Host.Outcome.next ?_)
    simp [out]

/-! ### What ENC emits, DEC receives -/

/-- The state in which DEC executes the frame just emitted, fed from a frame boundary. -/
def received (t : FrameType) (k : Option Key) (p : Bytes) (s : State) : State :=
  fetched (encFirstByte t) (secondOf k p) ⟨finOf (encFirstByte t), rsvOf (encFirstByte t), k, p⟩
    (frameBytes (encFirstByte t) k p).length (emitted t k p s)

section
variable {s : State} (hs : AtFrameStart s.dec) (hcfg : s.cfg = ⟨none, none⟩) {t : FrameType} {k : Option Key} {p : Bytes}
  (hp : payloadFits p = true)
include hs hcfg hp

/-- FEED of an emitted frame executes it. -/
theorem feed_emitted : feed (frameBytes (encFirstByte t) k p) (emitted t k p s) =
    andThen (exec (completedInstr (encFirstByte t) k p) (received t k p s)) fun u => .next (afterCompletion u) :=
  feed_one_frame (s := emitted t k p s) hs (encFirstByte t) k hp (by simp [emitted, hcfg])

/-- A frame that is emitted and then executed without an error leaves the decoder at a frame boundary, with the outputs of
its execution. -/
theorem round_trip {i : Instr} (hexec : exec i s = .next (emitted t k p s))
    (hbytes : encode i = frameBytes (encFirstByte t) k p) {acc : Option Bytes} {m : MsgType} {os : List Output}
    (hrow : exec (completedInstr (encFirstByte t) k p) (received t k p s) =
      .next (afterFrame acc m os (received t k p s))) :
    ∃ t u : State, exec i s = .next t ∧ t.dec = s.dec ∧ t.outputs = s.outputs ++ [.frame (encode i)]
      ∧ runOp (.decFeed (encode i)) t = .next u ∧ u.outputs = t.outputs ++ os ∧ DecodedAll u ∧ u.dec.acc = acc
      ∧ u.dec.msgType = m := by
  have hfeed : feed (encode i) (emitted t k p s) = .next (clearScratch (afterFrame acc m os (received t k p s))) := by
    obtain ⟨hlive, _⟩ := id hs
    rw [hbytes, feed_emitted hs hcfg hp, hrow, andThen_next, afterCompletion_live (by exact hlive)]
  obtain ⟨hlive, _, hbuf, _⟩ := hs
  exact ⟨emitted t k p s, _, hexec, rfl, by rw [hbytes]; rfl, hfeed, rfl, ⟨hlive, rfl, hbuf⟩, rfl, rfl⟩

/-- The round trip of a frame that is answered with one event and leaves nothing accumulated. -/
theorem round_trip_event {i : Instr} (hexec : exec i s = .next (emitted t k p s))
    (hbytes : encode i = frameBytes (encFirstByte t) k p) {m : MsgType} {ev : Event}
    (hrow : exec (completedInstr (encFirstByte t) k p) (received t k p s) =
      .next (afterFrame none m [.event ev] (received t k p s))) :
    ∃ t u : State, exec i s = .next t ∧ t.dec = s.dec ∧ t.outputs = s.outputs ++ [.frame (encode i)]
      ∧ runOp (.decFeed (encode i)) t = .next u ∧ u.outputs = t.outputs ++ [.event ev]
      ∧ (isErrorOutput (.event ev) = false → DecodedAll u ∧ u.dec.acc = none) := by
  obtain ⟨t, u, he, hdec, hout, hfeed, hev, hdone, hleft, _⟩ := round_trip hs hcfg hp hexec hbytes hrow
  exact ⟨t, u, he, hdec, hout, hfeed, hev, fun _ => ⟨hdone, hleft⟩⟩

/-- The round trip of a frame that is answered with an error. -/
theorem round_trip_error {i : Instr} (hexec : exec i s = .next (emitted t k p s))
    (hbytes : encode i = frameBytes (encFirstByte t) k p) {acc : Option Bytes} {m : MsgType} {e : DecError}
    (hrow : exec (completedInstr (encFirstByte t) k p) (received t k p s) =
      .next (raise e (afterFrame acc m [] (received t k p s)))) :
    ∃ t u : State, exec i s = .next t ∧ t.dec = s.dec ∧ t.outputs = s.outputs ++ [.frame (encode i)]
      ∧ runOp (.decFeed (encode i)) t = .next u
      ∧ u.outputs = t.outputs ++ [.event (.error e s.dec.offset (s.dec.offset + (encode i).length))] := by
  have hfeed : feed (encode i) (emitted t k p s) = .next (raise e (afterFrame acc m [] (received t k p s))) := by
    rw [hbytes, feed_emitted hs hcfg hp, hrow, andThen_next, afterCompletion_dead (by rfl)]
  refine ⟨emitted t k p s, _, hexec, rfl, by rw [hbytes]; rfl, hfeed, ?_⟩
  rw [hbytes, raise_outputs, afterFrame_outputs, List.append_nil]
  rfl

end

/-- A data frame with FIN that finds nothing accumulated is a whole message: rejected or delivered. -/
theorem dataFrame_whole {s : State} (hcfg : s.cfg.maxMessageBytes = none) (hacc : s.dec.acc = none) (p : Bytes)
    (m : MsgType) :
    dataFrame p true (some m) s = .next
      (if m = .text ∧ utf8Wf p = false then raise .invalidUtf8Text (afterFrame (some p) m [] s)
      else afterFrame none .none [.event (.message m p)] s) := by
  have hbytes : accBytes s.dec ++ p = p := by simp [accBytes, hacc]
  rw [dataFrame_eq (allowsMessage_unlimited hcfg _), hbytes, Option.getD_some, endOfFragment_afterFrame, if_neg nofun]

/-- Settles O49: a data frame is a whole message (`dataFrame_whole`), a control frame is answered at once. -/
theorem encodedMessageRoundTrips : Obligations.EncodedMessageRoundTrips := by
  intro k p s hs hacc hcfg hlen i ev hi
  have hp := payloadFits_iff.mpr hlen
  have hrow (t : FrameType) := build_mask_emit_emitted t k s hp
  obtain ⟨hlive, _⟩ := id hs
  have hlive (t : FrameType) : (received t k p s).dec.dead = false := hlive
  have hbinary := (exec_binary_live ⟨true, 0, k, p⟩ (hlive .binary)).trans
    (dataFrame_whole (s := received .binary k p s) (congrArg Config.maxMessageBytes hcfg) hacc p .binary)
  have htext := (exec_text_live ⟨true, 0, k, p⟩ (hlive .text)).trans
    (dataFrame_whole (s := received .text k p s) (congrArg Config.maxMessageBytes hcfg) hacc p .text)
  have hcontrol (t : FrameType) (e : Event) : controlFrame true e (received t k p s) =
      afterFrame none s.dec.msgType [.event e] (received t k p s) := by
    rw [← hacc]
    rfl
  rcases hi with ⟨rfl, rfl⟩ | ⟨rfl, hvalid, rfl⟩ | ⟨rfl, hinvalid, rfl⟩ | ⟨rfl, rfl⟩ | ⟨rfl, rfl⟩
  · rw [if_neg (by simp)] at hbinary
    exact round_trip_event hs hcfg hp (i := .encBinary k p) (hrow .binary) rfl hbinary
  · rw [if_neg (by simp [hvalid])] at htext
    exact round_trip_event hs hcfg hp (i := .encText k p) (hrow .text) rfl htext
  · rw [if_pos ⟨rfl, hinvalid⟩] at htext
    obtain ⟨t, u, he, hdec, hout, hfeed, hev⟩ := round_trip_error hs hcfg hp (i := .encText k p) (hrow .text) rfl htext
    exact ⟨t, u, he, hdec, hout, hfeed, hev, nofun⟩
  · have hping := exec_ping_live ⟨true, 0, k, p⟩ (hlive .ping)
    rw [hcontrol] at hping
    exact round_trip_event hs hcfg hp (i := .encPing k p) (hrow .ping) rfl hping
  · have hpong := exec_pong_live ⟨true, 0, k, p⟩ (hlive .pong)
    rw [hcontrol] at hpong
    exact round_trip_event hs hcfg hp (i := .encPong k p) (hrow .pong) rfl hpong

/-- Settles O50: a CONT frame without FIN appends to what is accumulated. -/
theorem encodedContinuationAccumulates : Obligations.EncodedContinuationAccumulates := by
  intro k p s hs hcfg hlen
  have hp := payloadFits_iff.mpr hlen
  obtain ⟨hlive, _⟩ := id hs
  have hlimit : (received .continuation k p s).cfg.maxMessageBytes = none := congrArg Config.maxMessageBytes hcfg
  have hcont := (exec_cont_live ⟨false, 0, k, p⟩ (s := received .continuation k p s) hlive).trans
    (dataFrame_eq (allowsMessage_unlimited hlimit _) false none)
  obtain ⟨t, u, he, hdec, hout, hfeed, hev, hdone, hleft, htype⟩ := round_trip hs hcfg hp (i := .encCont k p)
    (build_mask_emit_emitted .continuation k s hp) rfl hcont
  exact ⟨t, u, he, hdec, hout, hfeed, hev.trans (List.append_nil _), hdone, hleft, htype⟩

/-- A close that ENC emits is reported as what its payload says. -/
theorem close_round_trip {s : State} (hs : AtFrameStart s.dec) (hcfg : s.cfg = ⟨none, none⟩) {k : Option Key} {p : Bytes}
    (hp : payloadFits p = true) {i : Instr} (hexec : exec i s = .next (emitted .close k p s))
    (hbytes : encode i = frameBytes (encFirstByte .close) k p) :
    ∃ t u : State, exec i s = .next t ∧ t.dec = s.dec ∧ t.outputs = s.outputs ++ [.frame (encode i)]
      ∧ runOp (.decFeed (encode i)) t = .next u
      ∧ u.outputs = t.outputs ++ [.event (.close (closeMeaning p).1 (closeMeaning p).2)]
      ∧ DecodedAll u ∧ u.dec.acc = s.dec.acc ∧ u.dec.msgType = s.dec.msgType := by
  obtain ⟨hlive, _⟩ := id hs
  exact round_trip hs hcfg hp hexec hbytes (exec_close_live ⟨true, 0, k, p⟩ (s := received .close k p s) hlive)

/-- Settles O51: what the payload of each form says is `closeMeaning`. -/
theorem encodedCloseRoundTrips : Obligations.EncodedCloseRoundTrips := by
  intro k p c reason s hs hcfg hreason hlen i ev hi
  have hplain : exec (.encClose k p none none) s = .next (emitted .close k p s) :=
    (exec_encClose rfl k p s).trans (build_mask_emit_emitted .close k s (payloadFits_iff.mpr hlen))
  rcases hi with ⟨rfl, rfl⟩ | ⟨rfl, hshort, rfl⟩ | ⟨rfl, a, b, r, hcons, rfl⟩
  · have hfits : payloadFits (closePayload p (some c) reason) = true :=
      payloadFits_iff.mpr ((closePayload_some_length p c reason).symm ▸ hreason)
    have hmeaning : closeMeaning (closePayload p (some c) reason) = (statusSym c.toNat, reason.getD []) := by
      have hcode : c.toNat / 256 % 256 * 256 + c.toNat % 256 = c.toNat := by have := c.isLt; omega
      rw [closePayload_some, closeMeaning_cons]
      simp only [BitVec.toNat_ofNat, Nat.reducePow, hcode]
    have h := close_round_trip hs hcfg hfits ((exec_encClose (closeViolates_some c reason) k p s).trans
      (build_mask_emit_emitted .close k s hfits)) rfl
    rwa [hmeaning] at h
  · have h := close_round_trip hs hcfg (payloadFits_iff.mpr hlen) hplain rfl
    rwa [closeMeaning_short hshort] at h
  · have h := close_round_trip hs hcfg (payloadFits_iff.mpr hlen) hplain rfl
    rwa [hcons, closeMeaning_cons, ← hcons] at h

end Sys2Proof.Machine
end

section
/-! The UTF-8 table (44_frame_completion.md R220), the close-status table (10_state.md R42) and the STATUS word (R37). -/

namespace Sys2Proof.Machine

/-! ### UTF-8 -/

/-- The range of a group's first byte. -/
def leadRange (row : Utf8Row) : Byte × Byte := row.headD (0x00, 0xff)

/-- The rows stand in the order of their first bytes, and their ranges do not meet. -/
theorem utf8Rows_ordered : utf8Rows.Pairwise fun row row' => (leadRange row).2 < (leadRange row').1 := by decide

theorem utf8Rows_nonempty : ∀ row ∈ utf8Rows, 0 < row.length := by decide

theorem rowMatches_lead {row : Utf8Row} {b : Byte} {s : Bytes} (h : rowMatches row (b :: s) = true) :
    (leadRange row).1 ≤ b ∧ b ≤ (leadRange row).2 := by
  cases row with
  | nil => exact ⟨BitVec.le_def.mpr (Nat.zero_le _), BitVec.le_def.mpr (Nat.le_of_lt_succ b.isLt)⟩
  | cons range row =>
    simp only [rowMatches, Bool.and_eq_true, decide_eq_true_eq] at h
    exact h.1

/-- Bytes that match a row begin with a group of it. -/
theorem rowMatches_split {row : Utf8Row} {s : Bytes} (h : rowMatches row s = true) :
    (s.take row.length).length = row.length ∧ rowMatches row (s.take row.length) = true := by
  induction row generalizing s with
  | nil => exact ⟨rfl, rfl⟩
  | cons range row ih =>
    cases s with
    | nil => cases h
    | cons b s =>
      simp only [rowMatches, Bool.and_eq_true] at h
      obtain ⟨hrange, hrow⟩ := h
      obtain ⟨hlen, hfits⟩ := ih hrow
      simp only [List.length_cons, List.take_succ_cons, rowMatches, Bool.and_eq_true]
      exact ⟨congrArg (· + 1) hlen, hrange, hfits⟩

theorem rowMatches_append {row : Utf8Row} {g : Bytes} (h : rowMatches row g = true) (rest : Bytes) :
    rowMatches row (g ++ rest) = true := by
  induction row generalizing g with
  | nil => cases g ++ rest <;> rfl
  | cons range row ih =>
    cases g with
    | nil => cases h
    | cons b g =>
      simp only [List.cons_append, rowMatches, Bool.and_eq_true] at h ⊢
      exact ⟨h.1, ih h.2⟩

/-- In a list whose members exclude each other a member that answers is the one found. -/
theorem find?_of_pairwise {α : Type} {R : α → α → Prop} {p : α → Bool} {l : List α} (h : l.Pairwise R)
    (hexcl : ∀ a b, R a b → p a = true → p b = false) {a : α} (ha : a ∈ l) (hp : p a = true) : l.find? p = some a := by
  induction l with
  | nil => cases ha
  | cons x l ih =>
    obtain ⟨hx, hl⟩ := List.pairwise_cons.mp h
    rcases List.mem_cons.mp ha with rfl | ha
    · exact List.find?_cons_of_pos hp
    · have hpx : ¬ p x = true := fun hpx => nomatch hp.symm.trans (hexcl x a (hx a ha) hpx)
      rw [List.find?_cons_of_neg hpx, ih hl ha]

/-- The row a byte string matches is the one the check finds. -/
theorem find?_utf8Rows {row : Utf8Row} (hmem : row ∈ utf8Rows) {b : Byte} {s : Bytes}
    (h : rowMatches row (b :: s) = true) : utf8Rows.find? (fun row => rowMatches row (b :: s)) = some row := by
  refine find?_of_pairwise utf8Rows_ordered (fun r r' hlt hr => ?_) hmem h
  rw [Bool.eq_false_iff]
  intro hr'
  obtain ⟨_, hle⟩ := rowMatches_lead hr
  obtain ⟨hge, _⟩ := rowMatches_lead hr'
  simp only [BitVec.lt_def, BitVec.le_def] at hlt hle hge
  omega

theorem utf8Strip_of_found {row : Utf8Row} {b : Byte} {s : Bytes}
    (h : utf8Rows.find? (fun row => rowMatches row (b :: s)) = some row) (fuel : Nat) :
    utf8Strip (fuel + 1) (b :: s) = utf8Strip fuel ((b :: s).drop row.length) := by
  simp [utf8Strip, h]

theorem utf8Strip_cons {fuel : Nat} {b : Byte} {s : Bytes} (h : utf8Strip (fuel + 1) (b :: s) = true) :
    ∃ row, utf8Rows.find? (fun row => rowMatches row (b :: s)) = some row
      ∧ utf8Strip fuel ((b :: s).drop row.length) = true := by
  cases hf : utf8Rows.find? (fun row => rowMatches row (b :: s)) with
  | none => simp [utf8Strip, hf] at h
  | some row => exact ⟨row, rfl, (utf8Strip_of_found hf fuel).symm.trans h⟩

theorem utf8Groups_of_strip {fuel : Nat} {s : Bytes} (h : utf8Strip fuel s = true) : Utf8Groups s := by
  induction fuel generalizing s with
  | zero =>
    cases s with
    | nil => exact .nil
    | cons b s => cases h
  | succ fuel ih =>
    cases s with
    | nil => exact .nil
    | cons b s =>
      obtain ⟨row, hfound, hrest⟩ := utf8Strip_cons h
      obtain ⟨hlen, hfits⟩ := rowMatches_split (List.find?_some (p := fun row => rowMatches row (b :: s)) hfound)
      have hgroups := Utf8Groups.group row _ _ (List.mem_of_find?_eq_some hfound) hlen hfits (ih hrest)
      rwa [List.take_append_drop] at hgroups

theorem utf8Strip_of_groups {s : Bytes} (h : Utf8Groups s) {fuel : Nat} (hfuel : s.length ≤ fuel) :
    utf8Strip fuel s = true := by
  induction h generalizing fuel with
  | nil => cases fuel <;> rfl
  | group row g rest mem len fits _ ih =>
    have hpos : 0 < g.length := len ▸ utf8Rows_nonempty row mem
    obtain ⟨b, g, rfl⟩ := List.exists_cons_of_length_pos hpos
    rw [List.length_append, List.length_cons] at hfuel
    obtain ⟨fuel, rfl⟩ : ∃ n, fuel = n + 1 := ⟨fuel - 1, by omega⟩
    have hfound : utf8Rows.find? (fun row => rowMatches row (b :: (g ++ rest))) = some row :=
      find?_utf8Rows mem (rowMatches_append fits rest)
    rw [List.cons_append, utf8Strip_of_found hfound, ← List.cons_append, List.drop_left' len]
    exact ih (by omega)

/-- Settles O52: the check strips one group at a time; the rows' first bytes decide which. -/
theorem utf8CheckIsTheTable : Obligations.Utf8CheckIsTheTable :=
  ⟨rfl, fun _ => ⟨utf8Groups_of_strip, fun h => utf8Strip_of_groups h (Nat.le_refl _)⟩⟩

/-! ### The close-status table -/

theorem statusTable_codes :
    statusTable.map Prod.fst = [1000, 1001, 1002, 1003, 1007, 1008, 1009, 1010, 1011] := rfl

/-- A code outside the table has no symbol. -/
theorem statusSym_of_not_mem {c : Nat} (h : c ∉ statusTable.map Prod.fst) : statusSym c = .noStatus := by
  have hnone : statusTable.lookup c = none := by
    rw [List.lookup_eq_none_iff]
    intro row hrow
    rw [bne_iff_ne]
    rintro rfl
    exact h (List.mem_map_of_mem hrow)
  rw [statusSym, hnone]
  rfl

/-- Settles O53: the nine rows by evaluation, every other code by `statusSym_of_not_mem`. -/
theorem statusTableIsClosed : Obligations.StatusTableIsClosed := by
  refine ⟨rfl, rfl, rfl, rfl, rfl, rfl, rfl, rfl, rfl, fun c hc => ?_⟩
  rw [← statusTable_codes] at hc
  rw [statusSym_of_not_mem hc]
  rfl

/-! ### STATUS and reset -/

theorem phaseCode_lt (p : Phase) : phaseCode p < 8 := by cases p <;> decide
theorem msgTypeCode_lt (t : MsgType) : msgTypeCode t < 4 := by cases t <;> decide

/-- The sum of R191 does not overflow. -/
theorem statusWord_toNat (d : DecState) :
    (statusWord d).toNat = phaseCode d.phase + 8 * d.dead.toNat + 16 * d.errCode.toNat + 128 * d.acc.isSome.toNat
      + 256 * msgTypeCode d.msgType := by
  have hphase := phaseCode_lt d.phase
  have htype := msgTypeCode_lt d.msgType
  have hdead := d.dead.toNat_le
  have hacc := d.acc.isSome.toNat_le
  have herr := d.errCode.isLt
  rw [statusWord, BitVec.toNat_ofNat, Nat.mod_eq_of_lt (by omega)]

/-- A field of a word is a quotient and a remainder. -/
theorem toNat_field (w : BitVec 16) (start len : Nat) :
    (w.extractLsb' start len).toNat = w.toNat / 2 ^ start % 2 ^ len := by
  rw [BitVec.extractLsb'_toNat, Nat.shiftRight_eq_div_pow]

theorem getLsbD_of_toNat {w : BitVec 16} {i : Nat} {b : Bool} (h : w.toNat / 2 ^ i % 2 = b.toNat) : w.getLsbD i = b := by
  rw [← BitVec.testBit_toNat, Nat.testBit_eq_decide_div_mod_eq, h]
  cases b <;> rfl

/-- Settles O54: each field is read off the sum of `statusWord_toNat`, the fields below it being small. -/
theorem statusWordFields : Obligations.StatusWordFields := by
  intro s
  have hsum := statusWord_toNat s.dec
  have hphase := phaseCode_lt s.dec.phase
  have htype := msgTypeCode_lt s.dec.msgType
  have hdead := s.dec.dead.toNat_le
  have hacc := s.dec.acc.isSome.toNat_le
  have herr := s.dec.errCode.isLt
  have hphaseField : ((statusWord s.dec).extractLsb' 0 3).toNat = phaseCode s.dec.phase := by rw [toNat_field]; omega
  have htypeField : ((statusWord s.dec).extractLsb' 8 2).toNat = msgTypeCode s.dec.msgType := by rw [toNat_field]; omega
  refine ⟨statusWord s.dec, rfl, hphaseField.trans ?_, getLsbD_of_toNat (by omega), BitVec.eq_of_toNat_eq ?_,
    getLsbD_of_toNat (by omega), htypeField.trans ?_, BitVec.eq_of_toNat_eq ?_⟩
  · cases s.dec.phase <;> rfl
  · rw [toNat_field]; omega
  · cases s.dec.msgType <;> rfl
  · rw [toNat_field]; change _ = 0; omega

/-- Settles O1: the reset values as they are written. -/
theorem resetLeavesTheSpecsValues : Obligations.ResetLeavesTheSpecsValues := ⟨rfl, rfl, rfl⟩

/-- Settles O55: DEC.RESET writes the decoder's reset value. -/
theorem decResetRestoresTheDecoder : Obligations.DecResetRestoresTheDecoder := fun _ => rfl

end Sys2Proof.Machine
end

section
/-! What every host operation keeps: one lemma per unit of what its operations can do, and the statements about every step
that follow. -/

namespace Sys2Proof.Machine

/-! ### ENC operations -/

/-- What an ENC operation can do: refuse; or write the message register and append outputs, the same in every state with
this register; or fault, on a register that breaks R39. -/
def EncRuns (f : State → Out) (s : State) : Prop :=
  (∃ r, f s = .refused r) ∨
  (∃ m os, (EncInv s.enc → EncInv m) ∧ errorCount os = 0 ∧
    ∀ u : State, u.enc = s.enc → f u = .next { u with enc := m, outputs := u.outputs ++ os }) ∨
  (¬ EncInv s.enc ∧ ∃ r, f s = .fault r)

theorem encRuns_build (t : FrameType) (p : Bytes) (s : State) : EncRuns (build t p) s := by
  rcases Nat.lt_or_ge p.length (2 ^ 64) with h | h
  · refine .inr (.inl ⟨⟨true, t, p, false, none⟩, [], fun _ _ => ⟨rfl, h⟩, rfl, fun u _ => ?_⟩)
    rw [build_ok t u h, List.append_nil]
  · exact .inl ⟨_, build_refused t s h⟩

theorem encRuns_row (t : FrameType) (k : Option Key) (p : Bytes) (s : State) :
    EncRuns (fun u => andThen (build t p u) (maskThenEmit k)) s := by
  rcases Nat.lt_or_ge p.length (2 ^ 64) with h | h
  · exact .inr (.inl ⟨⟨true, t, maskOpt p k, k.isSome, k⟩, [.frame (frameBytes (encFirstByte t) k p)],
      fun _ _ => ⟨rfl, (maskOpt_length p k).symm ▸ h⟩, rfl,
      fun u _ => build_mask_emit_emitted t k u (payloadFits_iff.mpr h)⟩)
  · exact .inl ⟨.payloadTooLong, by simp only [build_refused t s h, andThen_refused]⟩

theorem encRuns_violation {f : State → Out} (h : ∀ u, f u = .next (reject u)) (s : State) : EncRuns f s := by
  refine .inr (.inl ⟨s.enc, [.contractViolation], id, rfl, fun u hu => ?_⟩)
  rw [h u, ← hu]
  rfl

theorem encRuns_buildClose (p : Bytes) (st : Option (BitVec 16)) (r : Option Bytes) (s : State) :
    EncRuns (buildClose p st r) s := by
  cases h : closeViolates st r with
  | true => exact encRuns_violation (fun u => by simp [buildClose, h]) s
  | false =>
    have hbuild : buildClose p st r = build .close (closePayload p st r) := funext (runOp_buildClose h p)
    rw [hbuild]
    exact encRuns_build _ _ s

theorem encRuns_encClose (k : Option Key) (p : Bytes) (st : Option (BitVec 16)) (r : Option Bytes) (s : State) :
    EncRuns (execEncClose k p st r) s := by
  cases h : closeViolates st r with
  | true => exact encRuns_violation (fun u => by simp [execEncClose, buildClose, h]) s
  | false =>
    have hrow : execEncClose k p st r = fun u => andThen (build .close (closePayload p st r) u) (maskThenEmit k) :=
      funext (exec_encClose h k p)
    rw [hrow]
    exact encRuns_row _ _ _ s

theorem encRuns_mask (k : Key) (s : State) : EncRuns (maskMessage k) s := by
  rcases maskMessage_cases k s with ⟨hv, hm, _⟩ | ⟨_, h⟩ | ⟨_, _, h⟩
  · refine .inr (.inl ⟨{ s.enc with mKey := some k, mMasked := true, mPayload := mask s.enc.mPayload k }, [],
      fun hinv _ => ⟨rfl, ?_⟩, rfl, fun u hu => ?_⟩)
    · obtain ⟨_, hlen⟩ := hinv hv
      exact (mask_length s.enc.mPayload k).symm ▸ hlen
    · rw [maskMessage_ok (hu ▸ hv) (hu ▸ hm), hu, List.append_nil]
  · exact .inl ⟨_, h⟩
  · exact .inl ⟨_, h⟩

theorem encRuns_emit (s : State) : EncRuns emitMessage s := by
  have hemits (key : Option Key) (h : ∀ u : State, u.enc = s.enc →
      emitMessage u = .next (out (.frame (emitBytes s.enc.mType key s.enc.mPayload)) u)) : EncRuns emitMessage s :=
    .inr (.inl ⟨s.enc, [.frame (emitBytes s.enc.mType key s.enc.mPayload)], id, rfl, fun u hu => by
      rw [h u hu, ← hu]; rfl⟩)
  cases hv : s.enc.mValid with
  | false => exact .inl ⟨.noMessage, by simp [emitMessage, hv]⟩
  | true =>
    cases hf : payloadFits s.enc.mPayload with
    | false => exact .inl ⟨.payloadTooLong, by simp [emitMessage, hv, hf]⟩
    | true =>
      cases hm : s.enc.mMasked with
      | false => exact hemits none fun u hu => by simp [emitMessage, hu, hv, hf, hm]
      | true =>
        cases hk : s.enc.mKey with
        | some k => exact hemits (some k) fun u hu => by simp [emitMessage, hu, hv, hf, hm, hk]
        | none =>
          refine .inr (.inr ⟨fun hinv => ?_, .readNone .encKey, by simp [emitMessage, hv, hf, hm, hk]⟩)
          obtain ⟨hkey, _⟩ := hinv hv
          simp [hk, hm] at hkey

theorem encRuns_encFrame (i : Instr) (s : State) : EncRuns (encFrame i) s := by
  cases i with
  | cont f | text f | binary f | rsvd3 f | rsvd4to7 lo f | close f | ping f | pong f | rsvd11 f | rsvd12to15 lo f =>
    exact .inl ⟨.notAnEncoderRow, rfl⟩
  | encCont k p => exact encRuns_row .continuation k p s
  | encText k p => exact encRuns_row .text k p s
  | encBinary k p => exact encRuns_row .binary k p s
  | encClose k p st r => exact encRuns_encClose k p st r s
  | encPing k p => exact encRuns_row .ping k p s
  | encPong k p => exact encRuns_row .pong k p s

theorem encOp_runs {op : HostOp} (h : isEncOp op = true) (s : State) : EncRuns (runOp op) s := by
  cases op with
  | encBuildText p => exact encRuns_build .text p s
  | encBuildBinary p => exact encRuns_build .binary p s
  | encBuildCont p => exact encRuns_build .continuation p s
  | encBuildPing p => exact encRuns_build .ping p s
  | encBuildPong p => exact encRuns_build .pong p s
  | encBuildClose p st r => exact encRuns_buildClose p st r s
  | encMask k => exact encRuns_mask k s
  | encEmit => exact encRuns_emit s
  | encFrame i => exact encRuns_encFrame i s
  | decReset | decFeed c | decStatus | xmLoadKey k | xmXorByte b => cases h

/-- An ENC operation that completes, in every state with the same register. -/
theorem encOp_next {op : HostOp} (h : isEncOp op = true) {s t : State} (ht : runOp op s = .next t) :
    ∃ m os, (EncInv s.enc → EncInv m) ∧ errorCount os = 0 ∧
      ∀ u : State, u.enc = s.enc → runOp op u = .next { u with enc := m, outputs := u.outputs ++ os } := by
  rcases encOp_runs h s with ⟨r, hr⟩ | hnext | ⟨_, r, hr⟩
  · cases hr.symm.trans ht
  · exact hnext
  · cases hr.symm.trans ht

/-! ### XM operations -/

/-- An XM operation refuses, or writes XM and appends outputs. -/
theorem xmOp_runs {op : HostOp} (hd : isDecOp op = false) (he : isEncOp op = false) (s : State) :
    (∃ r, runOp op s = .refused r) ∨
    ∃ x os, errorCount os = 0 ∧ runOp op s = .next { s with xm := x, outputs := s.outputs ++ os } := by
  cases op with
  | xmLoadKey k => exact .inr ⟨⟨some k, 0⟩, [], rfl, by rw [List.append_nil]; rfl⟩
  | xmXorByte b =>
    cases hk : s.xm.key with
    | none => exact .inl ⟨_, xmXorByte_none hk b⟩
    | some k => exact .inr ⟨_, [_], rfl, xmXorByte_eq hk b⟩
  | decReset | decFeed c | decStatus => cases hd
  | encBuildText p | encBuildBinary p | encBuildCont p | encBuildPing p | encBuildPong p | encBuildClose p st r
  | encMask k | encEmit | encFrame i => cases he

/-! ### DEC operations -/

theorem decOp_cases {op : HostOp} (h : isDecOp op = true) : op = .decReset ∨ op = .decStatus ∨ ∃ c, op = .decFeed c := by
  cases op with
  | decReset => exact .inl rfl
  | decStatus => exact .inr (.inl rfl)
  | decFeed c => exact .inr (.inr ⟨c, rfl⟩)
  | encBuildText p | encBuildBinary p | encBuildCont p | encBuildPing p | encBuildPong p | encBuildClose p st r
  | encMask k | encEmit | encFrame i | xmLoadKey k | xmXorByte b => cases h

/-- A DEC operation that completes, in every state with the same decoder and limits. -/
theorem decOp_next {op : HostOp} (h : isDecOp op = true) {s t : State} (ht : runOp op s = .next t) :
    ∃ d os, ∀ u : State, u.cfg = s.cfg → u.dec = s.dec →
      runOp op u = .next { u with dec := d, outputs := u.outputs ++ os } := by
  rcases decOp_cases h with rfl | rfl | ⟨c, rfl⟩
  · exact ⟨.reset, [], fun u _ _ => by rw [List.append_nil]; rfl⟩
  · exact ⟨s.dec, [.status (statusWord s.dec)], fun u _ hdec => by rw [← hdec]; rfl⟩
  · exact ⟨t.dec, feed_next ht⟩

/-! ### Every operation -/

/-- An operation that completes writes the registers of its unit, appends outputs, and nothing else; only DEC reports
errors. -/
theorem runOp_frame {op : HostOp} {s t : State} (h : runOp op s = .next t) :
    (isDecOp op = true ∧ ∃ os, t = { s with dec := t.dec, outputs := s.outputs ++ os }) ∨
    (isDecOp op = false ∧ isEncOp op = true ∧ (EncInv s.enc → EncInv t.enc) ∧
      ∃ os, errorCount os = 0 ∧ t = { s with enc := t.enc, outputs := s.outputs ++ os }) ∨
    (isDecOp op = false ∧ isEncOp op = false ∧
      ∃ os, errorCount os = 0 ∧ t = { s with xm := t.xm, outputs := s.outputs ++ os }) := by
  cases hd : isDecOp op with
  | true =>
    obtain ⟨d, os, hos⟩ := decOp_next hd h
    obtain rfl := (Host.Outcome.next.injEq _ _).mp (h.symm.trans (hos s rfl rfl))
    exact .inl ⟨rfl, os, rfl⟩
  | false =>
    cases he : isEncOp op with
    | true =>
      obtain ⟨m, os, hinv, hquiet, hos⟩ := encOp_next he h
      obtain rfl := (Host.Outcome.next.injEq _ _).mp (h.symm.trans (hos s rfl))
      exact .inr (.inl ⟨rfl, rfl, hinv, os, hquiet, rfl⟩)
    | false =>
      rcases xmOp_runs hd he s with ⟨r, hr⟩ | ⟨x, os, hquiet, hx⟩
      · cases hr.symm.trans h
      · obtain rfl := (Host.Outcome.next.injEq _ _).mp (h.symm.trans hx)
        exact .inr (.inr ⟨rfl, rfl, os, hquiet, rfl⟩)

/-- An operation appends outputs and keeps the configuration and the pending list. -/
theorem runOp_outputs {op : HostOp} {s t : State} (h : runOp op s = .next t) :
    s.outputs <+: t.outputs ∧ t.cfg = s.cfg ∧ t.pending = s.pending := by
  rcases runOp_frame h with ⟨_, os, ht⟩ | ⟨_, _, _, os, _, ht⟩ | ⟨_, _, os, _, ht⟩ <;>
    (rw [ht]; exact ⟨⟨os, rfl⟩, rfl, rfl⟩)

/-- Settles O58: an idle step changes nothing, any other is an operation on the rest of the pending list. -/
theorem outputsOnlyGrowInOrder : Obligations.OutputsOnlyGrowInOrder := by
  intro s t h
  rcases step_cases h with ⟨hidle, rfl⟩ | ⟨op, ops, hpending, hop⟩
  · exact ⟨List.prefix_rfl, rfl, by rw [hidle]; rfl⟩
  · obtain ⟨hout, hcfg, hleft⟩ := runOp_outputs hop
    exact ⟨hout, hcfg, by rw [hleft, hpending]; rfl⟩

/-- Settles O59: the three cases of `runOp_frame`. -/
theorem unitsShareNoMutableState : Obligations.UnitsShareNoMutableState := by
  intro op s t h
  have hunits : ¬ (isDecOp op = true ∧ isEncOp op = true) := by cases op <;> simp [isDecOp, isEncOp]
  rcases runOp_frame h with ⟨hd, os, ht⟩ | ⟨hd, he, _, os, _, ht⟩ | ⟨hd, he, os, _, ht⟩
  · exact ⟨fun _ => by rw [ht]; exact ⟨rfl, rfl⟩, fun he => absurd ⟨hd, he⟩ hunits,
      fun hd' => absurd (hd.symm.trans hd') nofun⟩
  · exact ⟨fun hd' => absurd (hd.symm.trans hd') nofun, fun _ => by rw [ht]; exact ⟨rfl, rfl⟩,
      fun _ he' => absurd (he.symm.trans he') nofun⟩
  · exact ⟨fun hd' => absurd (hd.symm.trans hd') nofun, fun he' => absurd (he.symm.trans he') nofun,
      fun _ _ => by rw [ht]; exact ⟨rfl, rfl⟩⟩

/-- Settles O60: each operation does the same in the state the other leaves, since that has the registers it reads. -/
theorem decAndEncOperationsCommute : Obligations.DecAndEncOperationsCommute := by
  intro d e s s₁ s₂ hd he h₁ h₂
  obtain ⟨r, ds, hdec⟩ := decOp_next hd h₁
  obtain rfl := (Host.Outcome.next.injEq _ _).mp ((hdec s rfl rfl).symm.trans h₁)
  obtain ⟨m, es, _, _, henc⟩ := encOp_next he h₂
  obtain rfl := (Host.Outcome.next.injEq _ _).mp ((henc _ rfl).symm.trans h₂)
  exact ⟨_, _, henc s rfl, hdec { s with enc := m, outputs := s.outputs ++ es } rfl rfl, rfl, rfl, rfl, rfl⟩

/-- Settles O19: the row is the first pending operation. -/
theorem stepRunsTheEmittedFrame : Obligations.StepRunsTheEmittedFrame := by
  refine fun s i ops => ⟨fun hpending henc => ?_, fun hpending hdec => ?_, fun hidle => ?_⟩
  · simp [step, runNext, hpending, runOp, encFrame, henc]
  · simp [step, runNext, hpending, runOp, encFrame, hdec]
  · simp [step, runNext, hidle]

/-! ### The dead state and the errors -/

/-- An operation other than DEC.RESET leaves a dead decoder as it is. -/
theorem runOp_dead {op : HostOp} (hne : op ≠ .decReset) {s t : State} (hdead : s.dec.dead = true)
    (h : runOp op s = .next t) : t.dec = s.dec := by
  rcases runOp_frame h with ⟨hd, _⟩ | ⟨_, _, _, _, _, ht⟩ | ⟨_, _, _, _, ht⟩
  · rcases decOp_cases hd with rfl | rfl | ⟨c, rfl⟩
    · exact absurd rfl hne
    · obtain rfl := (Host.Outcome.next.injEq _ _).mp h
      rfl
    · obtain rfl := (Host.Outcome.next.injEq _ _).mp ((feed_dead hdead).symm.trans h)
      rfl
  · rw [ht]
  · rw [ht]

/-- Settles O56: an idle step and every operation but DEC.RESET keep the decoder (`runOp_dead`). -/
theorem onlyResetLeavesTheDeadState : Obligations.OnlyResetLeavesTheDeadState := by
  intro s t hdead h
  rcases step_cases h with ⟨hidle, rfl⟩ | ⟨op, ops, hpending, hop⟩
  · exact .inr ⟨by simp [hidle], rfl⟩
  · by_cases hreset : op = .decReset
    · subst hreset
      obtain rfl := (Host.Outcome.next.injEq _ _).mp hop
      exact .inl ⟨by rw [hpending]; rfl, rfl⟩
    · exact .inr ⟨by simpa [hpending] using hreset, runOp_dead (s := { s with pending := ops }) hreset hdead hop⟩

theorem errorCount_append (xs ys : List Output) : errorCount (xs ++ ys) = errorCount xs + errorCount ys :=
  List.countP_append

/-- `t` lies one error entry after outputs `os`: the error is the last output, with the code and the range of the decoder,
whose input is discarded (60_exceptions.md R256). -/
def Raised (os : List Output) (t : State) : Prop :=
  t.dec.dead = true ∧ t.dec.inbuf = [] ∧ ∃ e, t.outputs = os ++ [.event (.error e t.dec.frameStart t.dec.offset)]
    ∧ t.dec.errCode = errorCode e

theorem raised_raise (e : DecError) (s : State) : Raised s.outputs (raise e s) := ⟨rfl, rfl, e, rfl, rfl⟩

/-- A phase step keeps the decoder live and reports no error, or raises one. -/
theorem phaseStep_errors {s t : State} (he : enabled s.dec = true) (h : phaseStep s = .next t) :
    (t.dec.dead = false ∧ ∃ os, errorCount os = 0 ∧ t.outputs = s.outputs ++ os) ∨ Raised s.outputs t := by
  obtain ⟨hlive, _⟩ := enabled_iff.mp he
  have hquiet (u : State) (hdead : u.dec.dead = s.dec.dead) (hout : u.outputs = s.outputs) :
      u.dec.dead = false ∧ ∃ os, errorCount os = 0 ∧ u.outputs = s.outputs ++ os :=
    ⟨hdead.trans hlive, [], rfl, by rw [hout, List.append_nil]⟩
  cases hphase : s.dec.phase with
  | header =>
    obtain rfl := (Host.Outcome.next.injEq _ _).mp ((phaseStep_header hphase).symm.trans h)
    exact .inl (hquiet _ rfl rfl)
  | payloadLength =>
    rw [phaseStep_payloadLength hphase] at h
    obtain ⟨b, _, ⟨_, rfl⟩ | ⟨len, _, _, rfl⟩⟩ := lengthStep_cases h
    · exact .inr (raised_raise _ _)
    · exact .inl (hquiet _ rfl rfl)
  | mask =>
    obtain rfl := (Host.Outcome.next.injEq _ _).mp ((phaseStep_mask hphase).symm.trans h)
    exact .inl (hquiet _ rfl rfl)
  | payload =>
    rw [phaseStep_payload hphase] at h
    obtain ⟨len, b, _, _, ⟨_, rfl⟩ | ⟨k, _, _, rfl⟩⟩ := payloadStep_cases h
    · exact .inl (hquiet _ rfl rfl)
    · exact .inl (hquiet _ rfl rfl)
  | complete =>
    rw [phaseStep_complete hphase] at h
    obtain ⟨first, p, u, _, _, hu, rfl⟩ := completeStep_cases h
    rcases exec_dec_cases (completedInstr_isEncoder _ _ _) hlive hu with
      ⟨acc, m, os, rfl, _, _, hos⟩ | ⟨acc, m, e, rfl, _⟩
    · rw [afterCompletion_live (by exact hlive)]
      exact .inl ⟨hlive, os, hos, rfl⟩
    · rw [afterCompletion_dead (by rfl)]
      refine .inr ⟨rfl, rfl, e, ?_, rfl⟩
      simp

/-- The state of a FEED that began with outputs `os`: no error yet, or one, the last output, and the decoder dead. -/
def ErrorsSince (os : List Output) (u : State) : Prop :=
  (u.dec.dead = false ∧ errorCount u.outputs = errorCount os) ∨ ∃ os', errorCount os' = errorCount os ∧ Raised os' u

theorem errorsSince_step {os : List Output} {u v : State} (hu : ErrorsSince os u) (he : enabled u.dec = true)
    (h : phaseStep u = .next v) : ErrorsSince os v := by
  obtain ⟨hlive, _⟩ := enabled_iff.mp he
  rcases hu with ⟨_, hcount⟩ | ⟨_, _, hdead, _⟩
  · rcases phaseStep_errors he h with ⟨hvlive, new, hnew, hout⟩ | hraised
    · exact .inl ⟨hvlive, by rw [hout, errorCount_append, hnew, hcount, Nat.add_zero]⟩
    · exact .inr ⟨u.outputs, hcount, hraised⟩
  · cases hlive.symm.trans hdead

/-- An operation on a live decoder leaves it live and reports no error, or raises one. -/
theorem runOp_errors {op : HostOp} {s t : State} (hlive : s.dec.dead = false) (h : runOp op s = .next t) :
    ErrorsSince s.outputs t := by
  have hquiet (u : State) (hdec : u.dec.dead = false) {os : List Output} (hos : errorCount os = 0)
      (hout : u.outputs = s.outputs ++ os) : ErrorsSince s.outputs u :=
    .inl ⟨hdec, by rw [hout, errorCount_append, hos, Nat.add_zero]⟩
  rcases runOp_frame h with ⟨hd, _⟩ | ⟨_, _, _, os, hos, ht⟩ | ⟨_, _, os, hos, ht⟩
  · rcases decOp_cases hd with rfl | rfl | ⟨c, rfl⟩
    · obtain rfl := (Host.Outcome.next.injEq _ _).mp h
      exact .inl ⟨rfl, rfl⟩
    · obtain rfl := (Host.Outcome.next.injEq _ _).mp h
      exact hquiet (decStatus s) hlive (os := [.status (statusWord s.dec)]) rfl rfl
    · exact (feed_keeps (P := ErrorsSince s.outputs) (fun u v hu he hv => errorsSince_step hu he hv)
        (fun _ => .inl ⟨hlive, rfl⟩) (fun hdead => nomatch hdead.symm.trans hlive) h).1
  · exact hquiet t (by rw [ht]; exact hlive) hos (by rw [ht])
  · exact hquiet t (by rw [ht]; exact hlive) hos (by rw [ht])

/-- An operation on a dead decoder reports no error. -/
theorem runOp_dead_errors {op : HostOp} {s t : State} (hdead : s.dec.dead = true) (h : runOp op s = .next t) :
    errorCount t.outputs = errorCount s.outputs := by
  rcases runOp_frame h with ⟨hd, _⟩ | ⟨_, _, _, os, hos, ht⟩ | ⟨_, _, os, hos, ht⟩
  · rcases decOp_cases hd with rfl | rfl | ⟨c, rfl⟩
    · obtain rfl := (Host.Outcome.next.injEq _ _).mp h
      rfl
    · obtain rfl := (Host.Outcome.next.injEq _ _).mp h
      exact errorCount_append _ _
    · obtain rfl := (Host.Outcome.next.injEq _ _).mp ((feed_dead hdead).symm.trans h)
      rfl
  · rw [ht, errorCount_append, hos, Nat.add_zero]
  · rw [ht, errorCount_append, hos, Nat.add_zero]

/-- Settles O57: on a live decoder `runOp_errors`, on a dead one `runOp_dead_errors`. -/
theorem errorIsReportedOnceByTheStepThatKills : Obligations.ErrorIsReportedOnceByTheStepThatKills := by
  intro s t h
  have hsince (hlive : s.dec.dead = false) : ErrorsSince s.outputs t := by
    rcases step_cases h with ⟨_, rfl⟩ | ⟨op, ops, _, hop⟩
    · exact .inl ⟨hlive, rfl⟩
    · exact runOp_errors (s := { s with pending := ops }) hlive hop
  refine ⟨fun hcase => ?_, fun hlive hdead => ?_⟩
  · cases hs : s.dec.dead with
    | true =>
      rcases step_cases h with ⟨_, rfl⟩ | ⟨op, ops, _, hop⟩
      · rfl
      · exact runOp_dead_errors (s := { s with pending := ops }) hs hop
    | false =>
      have htlive : t.dec.dead = false := hcase.resolve_left (by simp [hs])
      rcases hsince hs with ⟨_, hcount⟩ | ⟨_, _, htdead, _⟩
      · exact hcount
      · cases htlive.symm.trans htdead
  · rcases hsince hlive with ⟨htlive, _⟩ | ⟨os, hcount, _, hbuf, e, hout, hcode⟩
    · cases htlive.symm.trans hdead
    · refine ⟨?_, hbuf, e, by rw [hout, List.getLast?_concat], hcode⟩
      rw [hout, errorCount_append, hcount]
      rfl

end Sys2Proof.Machine
end

section
/-! The invariant of the states between two operations (10_state.md sections 4 and 5), and what follows from it: no fault,
and a FEED that completes. -/

namespace Sys2Proof.Machine

/-! ### The invariant inside a FEED -/

/-- Which scratch fields hold a value in which phase (R35), with any input buffered; COMPLETE, which no FEED ends in, has
the fields its step reads. -/
def ScratchLoaded (d : DecState) : Prop :=
  match d.phase with
  | .header =>
    d.firstByte = none ∧ d.secondByte = none ∧ d.payloadLength = none ∧ d.maskKey = none ∧ d.payload = none
  | .payloadLength =>
    d.firstByte.isSome ∧ d.secondByte.isSome ∧ d.payloadLength = none ∧ d.maskKey = none ∧ d.payload = none
  | .mask =>
    d.firstByte.isSome ∧ d.maskKey = none ∧ d.payload = none ∧ ∃ second len, d.secondByte = some second
      ∧ d.payloadLength = some len ∧ maskedOf second = true ∧ (lenEncode len).len7 = len7Of second
  | .payload =>
    d.firstByte.isSome ∧ d.payload = none ∧ ∃ second len, d.secondByte = some second
      ∧ d.payloadLength = some len ∧ d.maskKey.isSome = maskedOf second ∧ (lenEncode len).len7 = len7Of second
  | .complete => d.firstByte.isSome ∧ d.payload.isSome

/-- The decoder between two phase steps. -/
def RunInv (d : DecState) : Prop :=
  d.frameStart ≤ d.offset ∧ (d.acc = none → d.msgType = .none)
    ∧ (d.dead = false → d.errCode = 0 ∧ ScratchLoaded d) ∧ (d.dead = true → DeadValid d)

/-- Between two operations the scratch fields are loaded and the phase waits for its unit. -/
theorem scratchValid_iff (d : DecState) : ScratchValid d ↔ ScratchLoaded d ∧ phaseReady d = false := by
  unfold ScratchValid ScratchLoaded phaseReady
  cases hphase : d.phase with
  | header =>
    simp only [decide_eq_false_iff_not]
    constructor
    · rintro ⟨h1, h2, h3, h4, h5, hbuf⟩
      exact ⟨⟨h1, h2, h3, h4, h5⟩, by omega⟩
    · rintro ⟨⟨h1, h2, h3, h4, h5⟩, hbuf⟩
      exact ⟨h1, h2, h3, h4, h5, by omega⟩
  | payloadLength =>
    simp only [decide_eq_false_iff_not, Option.isSome_iff_exists]
    constructor
    · rintro ⟨first, second, h1, h2, h3, h4, h5, hbuf⟩
      exact ⟨⟨⟨first, h1⟩, ⟨second, h2⟩, h3, h4, h5⟩, by rw [h2]; exact Nat.not_le.mpr hbuf⟩
    · rintro ⟨⟨⟨first, h1⟩, ⟨second, h2⟩, h3, h4, h5⟩, hbuf⟩
      rw [h2] at hbuf
      exact ⟨first, second, h1, h2, h3, h4, h5, Nat.not_le.mp hbuf⟩
  | mask =>
    simp only [decide_eq_false_iff_not, Option.isSome_iff_exists]
    constructor
    · rintro ⟨first, second, len, h1, h2, h3, h4, h5, hmask, hcode, hbuf⟩
      exact ⟨⟨⟨first, h1⟩, h4, h5, second, len, h2, h3, hmask, hcode⟩, by omega⟩
    · rintro ⟨⟨⟨first, h1⟩, h4, h5, second, len, h2, h3, hmask, hcode⟩, hbuf⟩
      exact ⟨first, second, len, h1, h2, h3, h4, h5, hmask, hcode, by omega⟩
  | payload =>
    simp only [decide_eq_false_iff_not, Option.isSome_iff_exists]
    constructor
    · rintro ⟨first, second, len, h1, h2, h3, hmask, h5, hcode, hbuf⟩
      exact ⟨⟨⟨first, h1⟩, h5, second, len, h2, h3, hmask, hcode⟩, by rw [h3]; exact Nat.not_le.mpr hbuf⟩
    · rintro ⟨⟨⟨first, h1⟩, h5, second, len, h2, h3, hmask, hcode⟩, hbuf⟩
      rw [h3] at hbuf
      exact ⟨first, second, len, h1, h2, h3, hmask, h5, hcode, Nat.not_le.mp hbuf⟩
  | complete => simp

theorem decInv_iff (d : DecState) : DecInv d ↔ RunInv d ∧ enabled d = false := by
  have henabled : enabled d = false ↔ (d.dead = false → phaseReady d = false) := by
    cases hdead : d.dead <;> simp [enabled, hdead]
  unfold DecInv RunInv
  rw [henabled]
  constructor
  · rintro ⟨horder, htype, hlive, hdead⟩
    refine ⟨⟨horder, htype, fun h => ?_, hdead⟩, fun h => ?_⟩
    · obtain ⟨hcode, hscratch⟩ := hlive h
      exact ⟨hcode, ((scratchValid_iff d).mp hscratch).1⟩
    · obtain ⟨_, hscratch⟩ := hlive h
      exact ((scratchValid_iff d).mp hscratch).2
  · rintro ⟨⟨horder, htype, hlive, hdead⟩, hwaits⟩
    refine ⟨horder, htype, fun h => ?_, hdead⟩
    obtain ⟨hcode, hscratch⟩ := hlive h
    exact ⟨hcode, (scratchValid_iff d).mpr ⟨hscratch, hwaits h⟩⟩

/-! ### Each phase step keeps it -/

/-- On a live decoder the invariant is about the registers a phase step writes. -/
theorem runInv_live {d : DecState} (hlive : d.dead = false) (horder : d.frameStart ≤ d.offset)
    (htype : d.acc = none → d.msgType = .none) (hcode : d.errCode = 0) (hscratch : ScratchLoaded d) : RunInv d :=
  ⟨horder, htype, fun _ => ⟨hcode, hscratch⟩, fun hdead => nomatch hlive.symm.trans hdead⟩

theorem isSome_keyOfBytes {s : Bytes} (h : s.length = 4) : (keyOfBytes s).isSome = true := by
  match s, h with
  | [_, _, _, _], _ => rfl

/-- Every error but the length error is raised in COMPLETE with its own code. -/
theorem errorCode_complete {e : DecError} (h : e ≠ .nonMinimalLengthEncoding) :
    errorCode e = 1 ∨ errorCode e = 3 ∨ errorCode e = 4 := by
  cases e with
  | unknownOpcode => exact .inl rfl
  | nonMinimalLengthEncoding => exact absurd rfl h
  | invalidUtf8Text => exact .inr (.inl rfl)
  | fragmentedControlFrame => exact .inr (.inr rfl)

theorem lengthStep_keeps_runInv {s t : State} (hinv : RunInv s.dec) (hlive : s.dec.dead = false)
    (hphase : s.dec.phase = .payloadLength)
    (hready : ∀ b, s.dec.secondByte = some b → extSize (len7Of b) ≤ s.dec.inbuf.length) (h : lengthStep s = .next t) :
    RunInv t.dec := by
  obtain ⟨horder, htype, hscratch, _⟩ := hinv
  obtain ⟨hcode, hscratch⟩ := hscratch hlive
  simp only [ScratchLoaded, hphase] at hscratch
  obtain ⟨hfirst, _, _, hkey, hpayload⟩ := hscratch
  obtain ⟨b, hb, ⟨_, rfl⟩ | ⟨len, hdec, _, rfl⟩⟩ := lengthStep_cases h
  · exact ⟨Nat.le_add_right_of_le horder, htype, nofun, fun _ => ⟨rfl, .inl ⟨hphase, rfl⟩⟩⟩
  · have hcodeword : (lenEncode len).len7 = len7Of b := by
      rw [lenEncode_of_lenDecode (List.length_take_of_le (hready b hb)) hdec]
    refine runInv_live hlive (Nat.le_add_right_of_le horder) htype hcode ?_
    cases hmask : maskedOf b with
    | true => exact ⟨hfirst, hkey, hpayload, b, len, hb, rfl, hmask, hcodeword⟩
    | false =>
      exact ⟨hfirst, hpayload, b, len, hb, rfl, (congrArg Option.isSome hkey).trans hmask.symm, hcodeword⟩

theorem completeStep_keeps_runInv {s t : State} (hinv : RunInv s.dec) (hlive : s.dec.dead = false)
    (hphase : s.dec.phase = .complete) (h : completeStep s = .next t) : RunInv t.dec := by
  obtain ⟨horder, htype, hscratch, _⟩ := hinv
  obtain ⟨hcode, _⟩ := hscratch hlive
  obtain ⟨first, p, u, _, _, hu, rfl⟩ := completeStep_cases h
  rcases exec_dec_cases (completedInstr_isEncoder _ _ _) hlive hu with
    ⟨acc, m, os, rfl, hacc, _⟩ | ⟨acc, m, e, rfl, hacc, he⟩
  · rw [afterCompletion_live (by exact hlive)]
    refine runInv_live hlive horder (fun hnone => ?_) hcode ⟨rfl, rfl, rfl, rfl, rfl⟩
    rcases hacc hnone with hm | ⟨hsacc, hm⟩
    · exact hm
    · exact hm.trans (htype hsacc)
  · rw [afterCompletion_dead (by rfl)]
    refine ⟨horder, fun hnone => ?_, nofun, fun _ => ⟨rfl, .inr ⟨hphase, errorCode_complete he⟩⟩⟩
    obtain ⟨hsacc, hm⟩ := hacc hnone
    exact hm.trans (htype hsacc)

theorem phaseStep_keeps_runInv {s t : State} (hinv : RunInv s.dec) (he : enabled s.dec = true)
    (h : phaseStep s = .next t) : RunInv t.dec := by
  obtain ⟨hlive, hready⟩ := enabled_iff.mp he
  unfold phaseReady at hready
  obtain ⟨horder, htype, hscratch, _⟩ := id hinv
  obtain ⟨hcode, hscratch⟩ := hscratch hlive
  unfold ScratchLoaded at hscratch
  cases hphase : s.dec.phase with
  | header =>
    simp only [hphase, decide_eq_true_eq] at hscratch hready
    obtain ⟨_, _, hlen, hkey, hpayload⟩ := hscratch
    obtain rfl := (Host.Outcome.next.injEq _ _).mp ((phaseStep_header hphase).symm.trans h)
    have hbuffered (i : Nat) (hi : i < 2) : (s.dec.inbuf[i]?).isSome = true :=
      congrArg Option.isSome (List.getElem?_eq_getElem (Nat.lt_of_lt_of_le hi hready))
    exact runInv_live hlive (Nat.le_add_right _ 2) htype hcode
      ⟨hbuffered 0 (by decide), hbuffered 1 (by decide), hlen, hkey, hpayload⟩
  | payloadLength =>
    simp only [hphase, decide_eq_true_eq] at hready
    exact lengthStep_keeps_runInv hinv hlive hphase (fun b hb => by simpa [hb] using hready)
      ((phaseStep_payloadLength hphase).symm.trans h)
  | mask =>
    simp only [hphase, decide_eq_true_eq] at hscratch hready
    obtain ⟨hfirst, _, hpayload, second, len, hb, hlen, hmask, hcodeword⟩ := hscratch
    obtain rfl := (Host.Outcome.next.injEq _ _).mp ((phaseStep_mask hphase).symm.trans h)
    exact runInv_live hlive (Nat.le_add_right_of_le horder) htype hcode ⟨hfirst, hpayload, second, len, hb, hlen,
      (isSome_keyOfBytes (List.length_take_of_le hready)).trans hmask.symm, hcodeword⟩
  | payload =>
    simp only [hphase] at hscratch
    obtain ⟨hfirst, _⟩ := hscratch
    rw [phaseStep_payload hphase] at h
    obtain ⟨len, b, _, _, ⟨_, rfl⟩ | ⟨k, _, _, rfl⟩⟩ := payloadStep_cases h
    · exact runInv_live hlive (Nat.le_add_right_of_le horder) htype hcode ⟨hfirst, rfl⟩
    · exact runInv_live hlive (Nat.le_add_right_of_le horder) htype hcode ⟨hfirst, rfl⟩
  | complete =>
    exact completeStep_keeps_runInv hinv hlive hphase ((phaseStep_complete hphase).symm.trans h)

theorem runInv_buffer {s : State} (hinv : DecInv s.dec) (hlive : s.dec.dead = false) (c : Bytes) :
    RunInv (buffer c s).dec := by
  obtain ⟨⟨horder, htype, hscratch, _⟩, _⟩ := (decInv_iff s.dec).mp hinv
  obtain ⟨hcode, hscratch⟩ := hscratch hlive
  exact runInv_live hlive horder htype hcode hscratch

/-- FEED leaves the decoder with the invariant: every phase step keeps it, and the last leaves none enabled. -/
theorem feed_keeps_decInv {c : Bytes} {s t : State} (hinv : DecInv s.dec) (h : feed c s = .next t) : DecInv t.dec :=
  (decInv_iff t.dec).mpr (feed_keeps (P := fun u => RunInv u.dec) (fun _ _ hu he hv => phaseStep_keeps_runInv hu he hv)
    (fun hlive => runInv_buffer hinv hlive c) (fun _ => ((decInv_iff s.dec).mp hinv).1) h)

/-- Settles O2: after reset the decoder is at a frame boundary and no message is valid. -/
theorem resetMeetsInvariant : Obligations.ResetMeetsInvariant :=
  ⟨⟨Nat.le_refl 0, fun _ => rfl, fun _ => ⟨rfl, rfl, rfl, rfl, rfl, rfl, Nat.zero_le 1⟩, nofun⟩, nofun⟩

theorem runOp_keeps_inv {op : HostOp} {s t : State} (hinv : Inv s) (h : runOp op s = .next t) : Inv t := by
  obtain ⟨hdec, henc⟩ := hinv
  rcases runOp_frame h with ⟨hd, os, ht⟩ | ⟨_, _, hkeep, os, _, ht⟩ | ⟨_, _, os, _, ht⟩
  · have hencInv : EncInv t.enc := by rw [ht]; exact henc
    rcases decOp_cases hd with rfl | rfl | ⟨c, rfl⟩
    · obtain rfl := (Host.Outcome.next.injEq _ _).mp h
      exact ⟨resetMeetsInvariant.1, hencInv⟩
    · obtain rfl := (Host.Outcome.next.injEq _ _).mp h
      exact ⟨hdec, hencInv⟩
    · exact ⟨feed_keeps_decInv hdec h, hencInv⟩
  · exact ⟨by rw [ht]; exact hdec, hkeep henc⟩
  · exact ⟨by rw [ht]; exact hdec, by rw [ht]; exact henc⟩

/-- Settles O3: DEC keeps its part by `feed_keeps_decInv`, ENC its part by `encOp_next`, and no unit writes another's. -/
theorem stepKeepsInvariant : Obligations.StepKeepsInvariant := by
  intro s t hinv h
  rcases step_cases h with ⟨_, rfl⟩ | ⟨op, ops, _, hop⟩
  · exact hinv
  · exact runOp_keeps_inv (s := { s with pending := ops }) hinv hop

/-- Settles O23: under the invariant no phase step is enabled before the FEED, and no byte arrives. -/
theorem emptyFeedChangesNothing : Obligations.EmptyFeedChangesNothing := by
  rintro s ⟨hdec, _⟩
  obtain ⟨_, hwaits⟩ := (decInv_iff s.dec).mp hdec
  calc runOp (.decFeed []) s = advanceAll (arrive [] s) := feed_eq [] s
    _ = .next s := by rw [arrive_nil, advanceAll_disabled hwaits]

/-! ### No fault, and no refusal without limits -/

/-- An outcome is a next state, or a refusal that a configured limit explains. -/
def CompletesOrLimited (c : Config) (o : Out) : Prop :=
  (∃ t, o = .next t) ∨ ((∃ r, o = .refused r) ∧ c ≠ ⟨none, none⟩)

theorem exec_dec_completes {i : Instr} (hi : i.isEncoder = false) {s : State} (hlive : s.dec.dead = false) :
    CompletesOrLimited s.cfg (exec i s) := by
  rcases exec_dec_shape hi with ⟨p, fin, m, hs⟩ | ⟨fin, e, _, hs⟩ | hs
  · have hs : exec i s = dataFrame p fin m s := hs s hlive
    rw [hs]
    cases hallow : allowsMessage s.cfg (accBytes s.dec ++ p).length with
    | true => exact .inl ⟨_, dataFrame_eq hallow fin m⟩
    | false =>
      refine .inr ⟨⟨_, dataFrame_refused hallow fin m⟩, fun hcfg => ?_⟩
      rw [hcfg, allowsMessage_none] at hallow
      cases hallow
  · exact .inl ⟨_, hs s hlive⟩
  · exact .inl ⟨_, hs s hlive⟩

theorem resolveLength_completes (second : Byte) (r : LenResult) (s : State) :
    CompletesOrLimited s.cfg (resolveLength second r s) := by
  cases r with
  | nonMinimal => exact .inl ⟨_, rfl⟩
  | ok len =>
    cases hallow : allowsFrame s.cfg len.toNat with
    | true => exact .inl ⟨_, resolveLength_ok second hallow⟩
    | false =>
      refine .inr ⟨⟨.frameLimit, by simp [resolveLength, hallow]⟩, fun hcfg => ?_⟩
      rw [hcfg, allowsFrame_none] at hallow
      cases hallow

/-- The scratch fields a phase step reads hold a value. -/
theorem phaseStep_completes {s : State} (hinv : RunInv s.dec) (he : enabled s.dec = true) :
    CompletesOrLimited s.cfg (phaseStep s) := by
  obtain ⟨hlive, _⟩ := enabled_iff.mp he
  obtain ⟨_, _, hscratch, _⟩ := hinv
  obtain ⟨_, hscratch⟩ := hscratch hlive
  unfold ScratchLoaded at hscratch
  cases hphase : s.dec.phase with
  | header => exact .inl ⟨_, phaseStep_header hphase⟩
  | payloadLength =>
    simp only [hphase, Option.isSome_iff_exists] at hscratch
    obtain ⟨_, ⟨second, hb⟩, _⟩ := hscratch
    rw [phaseStep_payloadLength hphase, lengthStep_eq hb]
    exact resolveLength_completes second _ (consume _ s)
  | mask => exact .inl ⟨_, phaseStep_mask hphase⟩
  | payload =>
    simp only [hphase] at hscratch
    obtain ⟨_, _, second, len, hb, hlen, hkey, _⟩ := hscratch
    rw [phaseStep_payload hphase]
    cases hmask : maskedOf second with
    | false => exact .inl ⟨_, payloadStep_unmasked hlen hb hmask⟩
    | true =>
      obtain ⟨k, hk⟩ := Option.isSome_iff_exists.mp (hkey.trans hmask)
      exact .inl ⟨_, payloadStep_masked hlen hb hmask hk⟩
  | complete =>
    simp only [hphase, Option.isSome_iff_exists] at hscratch
    obtain ⟨⟨first, hfirst⟩, p, hp⟩ := hscratch
    have hstep : completeStep s = andThen (exec (completedInstr first s.dec.maskKey p) s)
        fun u => .next (afterCompletion u) := by simp [completeStep, hfirst, hp]
    rw [phaseStep_complete hphase, hstep]
    rcases exec_dec_completes (completedInstr_isEncoder first s.dec.maskKey p) hlive with ⟨u, hu⟩ | ⟨⟨r, hr⟩, hcfg⟩
    · exact .inl ⟨afterCompletion u, by rw [hu, andThen_next]⟩
    · exact .inr ⟨⟨r, by rw [hr, andThen_refused]⟩, hcfg⟩

theorem advanceAll_completes (s : State) : RunInv s.dec → CompletesOrLimited s.cfg (advanceAll s) := by
  induction s using advance_induct with
  | hd s he => exact fun _ => .inl ⟨s, advanceAll_disabled he⟩
  | hs s he ih =>
    intro hinv
    rw [advanceAll_enabled he]
    rcases phaseStep_completes hinv he with ⟨t, ht⟩ | ⟨⟨r, hr⟩, hcfg⟩
    · rw [ht, andThen_next, ← phaseStep_cfg ht]
      exact ih t ht (phaseStep_keeps_runInv hinv he ht)
    · exact .inr ⟨⟨r, by rw [hr, andThen_refused]⟩, hcfg⟩

theorem feed_completes {s : State} (hinv : DecInv s.dec) (c : Bytes) : CompletesOrLimited s.cfg (feed c s) := by
  cases hdead : s.dec.dead with
  | true => exact .inl ⟨s, feed_dead hdead⟩
  | false =>
    rw [feed_live hdead]
    exact advanceAll_completes (buffer c s) (runInv_buffer hinv hdead c)

/-- Settles O5: without limits nothing refuses (`feed_completes`). -/
theorem feedIsTotalWithoutLimits : Obligations.FeedIsTotalWithoutLimits := by
  rintro s chunk ⟨hdec, _⟩ hcfg
  rcases feed_completes hdec chunk with hnext | ⟨_, hlimited⟩
  · exact hnext
  · exact absurd hcfg hlimited

theorem runOp_no_fault {op : HostOp} {s : State} (hinv : Inv s) (r : Fault) : runOp op s ≠ .fault r := by
  intro hr
  obtain ⟨hdec, henc⟩ := hinv
  cases hd : isDecOp op with
  | true =>
    rcases decOp_cases hd with rfl | rfl | ⟨c, rfl⟩
    · cases hr
    · cases hr
    · have hfeed : feed c s = .fault r := hr
      rcases feed_completes hdec c with ⟨t, ht⟩ | ⟨⟨q, hq⟩, _⟩
      · cases hfeed.symm.trans ht
      · cases hfeed.symm.trans hq
  | false =>
    cases he : isEncOp op with
    | true =>
      rcases encOp_runs he s with ⟨q, hq⟩ | ⟨m, os, _, _, hos⟩ | ⟨hbroken, _⟩
      · cases hr.symm.trans hq
      · cases hr.symm.trans (hos s rfl)
      · exact hbroken henc
    | false =>
      rcases xmOp_runs hd he s with ⟨q, hq⟩ | ⟨x, os, _, hx⟩
      · cases hr.symm.trans hq
      · cases hr.symm.trans hx

/-- Settles O4: an idle step does not fault, and no operation does under the invariant. -/
theorem stepNeverFaultsUnderInvariant : Obligations.StepNeverFaultsUnderInvariant := by
  intro s r hinv h
  unfold step runNext at h
  split at h
  · cases h
  · rename_i op ops _
    exact runOp_no_fault (s := { s with pending := ops }) hinv r h

end Sys2Proof.Machine
end
